-- ==== Sys2Proof/Word.lean ====
section
/-! DEFINITION. The word types of the engine (00_scope.md R8, R9): bit 0 is the least significant bit. -/

namespace Sys2Proof

/-- A byte, bits [7:0] (R8). -/
abbrev Byte := BitVec 8

/-- A 64-bit lane, "the atomic unit of the permutation's state" (R9, R13). -/
abbrev Lane := BitVec 64

/-- A 32-bit command word or 32-bit register value (R60, R25, R26). -/
abbrev Word := BitVec 32

/-- An offset in the host register window, 0x000..0x3FF (R40). -/
abbrev Offset := BitVec 10

/-- The state register file `A`: exactly 25 lanes (R20). -/
abbrev Lanes := Vector Lane 25

/-- A block of `RATE_BYTES` = 136 bytes (R13, R22). -/
abbrev Block := Vector Byte 136

/-- A digest of `DIGEST_BYTES` = 32 bytes (R13, R23). -/
abbrev Digest := Vector Byte 32

end Sys2Proof
end

