-- ==== Sys2Proof/Config.lean ====
section
/-! DEFINITION. The fixed parameters of the engine (00_scope.md R6), the two parameters R7 leaves open, and
the constant `CONFIG` register (10_state.md R26). -/

namespace Sys2Proof

/-- `RATE_BYTES` (R6). -/
abbrev Config.rateBytes : Nat := 136

/-- `RATE_LANES` (R6). -/
abbrev Config.rateLanes : Nat := 17

/-- `DIGEST_BYTES` (R6). -/
abbrev Config.digestBytes : Nat := 32

/-- `ROUNDS` (R6). -/
abbrev Config.rounds : Nat := 24

/-- `LFSR_SEED` (R6). -/
def Config.lfsrSeed : BitVec 8 := 0x01#8

/-- `LFSR_POLY` (R6). -/
def Config.lfsrPoly : BitVec 8 := 0x71#8

/-- `WINDOW_BYTES` (R6, R40). -/
abbrev Config.windowBytes : Nat := 0x400

/-- `BASE`, the window's address in the host's address space: a parameter the platform chooses and no rule of
the engine reads (R7, R40; 93_implementation_defined.md V10). It has no value here. -/
opaque Config.base : Nat

/-- The two padding markers, the parameter `PadMarkers` of 92_eei_decisions.md D6 (V11). -/
structure PadMarkers where
  first : Byte
  last  : Byte
  deriving DecidableEq, Repr

/-- The spec's value of `PadMarkers`: `PAD_FIRST` = 0x01 and `PAD_LAST` = 0x80 (R6, D6; 90_conflicts.md C1). -/
def Config.padMarkers : PadMarkers := { first := 0x01#8, last := 0x80#8 }

/-- The document's literal reading of the markers, which 90_conflicts.md C1 rejects; kept for comparison only. -/
def Config.literalPadMarkers : PadMarkers := { first := 0x80#8, last := 0x01#8 }

/-- The `CONFIG` register, hardwired to 0x40182088 (10_state.md R26). -/
def Config.configWord : Word := 0x40182088#32

end Sys2Proof
end

