-- ==== Sys2Proof/Syntax.lean ====
section
/-! DEFINITION. What the engine executes: the five commands and the eight sequencer phases, one constructor for
each row of spec/opcode_table.json (30_encoding.md R61, R66). -/

namespace Sys2Proof

/-- The sequencer's phases (10_state.md R30; 30_encoding.md R66). -/
inductive Phase where
  | idle
  | clr
  | xor
  | theta
  | rhopi
  | chi
  | iota
  | sqz
  deriving DecidableEq, Repr

/-- The rows of the opcode table. -/
inductive Instr where
  /-- `INIT`: start a new hash (42_commands.md R131). -/
  | init
  /-- `ABSORB`: absorb the whole block in `BLK` (R132). -/
  | absorb
  /-- `FINAL N`: pad and absorb `BLK[0..N-1]`, then squeeze (R133). -/
  | final (n : BitVec 8)
  /-- `PERMUTE`: apply Keccak-f to the lanes (R134). -/
  | permute
  /-- `SQUEEZE`: copy the digest into `DOUT` (R135). -/
  | squeeze
  /-- Phase `IDLE` (R144). -/
  | phaseIdle
  /-- Phase `CLR` (R137). -/
  | phaseClr
  /-- Phase `XOR` (R138). -/
  | phaseXor
  /-- Phase `THETA` (R139). -/
  | phaseTheta
  /-- Phase `RHOPI` (R140). -/
  | phaseRhopi
  /-- Phase `CHI` (R141). -/
  | phaseChi
  /-- Phase `IOTA` (R142). -/
  | phaseIota
  /-- Phase `SQZ` (R143). -/
  | phaseSqz
  deriving DecidableEq, Repr

/-- An encoded instruction: a 32-bit command word written to `CMD` (R60), or a 3-bit phase code (R66), which no
host access can write. -/
inductive Code where
  | command (w : Word)
  | phase (p : BitVec 3)
  deriving DecidableEq, Repr

end Sys2Proof
end

