-- ==== Sys2Proof/WellFormed.lean ====
section
/-! DEFINITION. Which terms of `Instr` are instructions of the engine: FINAL's `N` is 0..135 (30_encoding.md
R62); no other row has an operand. -/

namespace Sys2Proof

/-- The one check there is: `N = 136 or more is illegal` (R62). -/
def Instr.wf : Instr → Bool
  | .final n => decide (n.toNat ≤ 135)
  | .init => true
  | .absorb => true
  | .permute => true
  | .squeeze => true
  | .phaseIdle => true
  | .phaseClr => true
  | .phaseXor => true
  | .phaseTheta => true
  | .phaseRhopi => true
  | .phaseChi => true
  | .phaseIota => true
  | .phaseSqz => true

end Sys2Proof
end

