-- ==== Sys2Proof/Decode.lean ====
section
/-! DEFINITION. The decoder of command words and of phase codes, total and rejecting by name, and the encoder
after it (30_encoding.md R60 to R66). -/

namespace Sys2Proof

/-- Why a word, a byte string or a code is no instruction (R61, R63, R64, R65). -/
inductive DecodeError where
  /-- `OP` is 0x0 or 0x6..0xF (R61). -/
  | reservedOp
  /-- Bits [7:4] are not 0 (R63). -/
  | nonzeroRes0
  /-- Bits [31:16] are not 0 (R63). -/
  | nonzeroRes1
  /-- Bits [15:8] are not 0 in a command other than FINAL (R63). -/
  | nonzeroN
  /-- FINAL with `N >= 136` (R62). -/
  | finalLength
  /-- A byte string that is not exactly four bytes (R65). -/
  | badLength
  deriving DecidableEq, Repr

/-- Field `OP`, bits [3:0] (R60). -/
def opField (w : Word) : BitVec 4 := w.extractLsb' 0 4

/-- Field `RES0`, bits [7:4] (R60). -/
def res0Field (w : Word) : BitVec 4 := w.extractLsb' 4 4

/-- Field `N`, bits [15:8] (R60, R62). -/
def nField (w : Word) : BitVec 8 := w.extractLsb' 8 8

/-- Field `RES1`, bits [31:16] (R60). -/
def res1Field (w : Word) : BitVec 16 := w.extractLsb' 16 16

/-- `OP` of INIT (R61). -/
def opInit : BitVec 4 := 0x1#4
/-- `OP` of ABSORB (R61). -/
def opAbsorb : BitVec 4 := 0x2#4
/-- `OP` of FINAL (R61). -/
def opFinal : BitVec 4 := 0x3#4
/-- `OP` of PERMUTE (R61). -/
def opPermute : BitVec 4 := 0x4#4
/-- `OP` of SQUEEZE (R61). -/
def opSqueeze : BitVec 4 := 0x5#4

/-- A command without an operand: its `N` field must be 0 (R63). -/
def decodePlain (w : Word) (i : Instr) : Except DecodeError Instr :=
  if nField w = 0#8 then .ok i else .error .nonzeroN

/-- FINAL: its `N` field is 0..135 (R62). -/
def decodeFinal (w : Word) : Except DecodeError Instr :=
  if (nField w).toNat ≤ 135 then .ok (.final (nField w)) else .error .finalLength

/-- The decoder of R61: the reserved fields first, then `OP`, then `N`. -/
def decodeCommand (w : Word) : Except DecodeError Instr :=
  if res1Field w ≠ 0#16 then .error .nonzeroRes1
  else if res0Field w ≠ 0#4 then .error .nonzeroRes0
  else if opField w = opInit then decodePlain w .init
  else if opField w = opAbsorb then decodePlain w .absorb
  else if opField w = opFinal then decodeFinal w
  else if opField w = opPermute then decodePlain w .permute
  else if opField w = opSqueeze then decodePlain w .squeeze
  else .error .reservedOp

/-- The phase with a given code (R66): "Every value is used; there are no reserved phases". -/
def Phase.ofCode (p : BitVec 3) : Phase :=
  if p = 0b000#3 then .idle
  else if p = 0b001#3 then .clr
  else if p = 0b010#3 then .xor
  else if p = 0b011#3 then .theta
  else if p = 0b100#3 then .rhopi
  else if p = 0b101#3 then .chi
  else if p = 0b110#3 then .iota
  else .sqz

/-- The row of the opcode table a phase runs (R66). -/
def Phase.toInstr : Phase → Instr
  | .idle => .phaseIdle
  | .clr => .phaseClr
  | .xor => .phaseXor
  | .theta => .phaseTheta
  | .rhopi => .phaseRhopi
  | .chi => .phaseChi
  | .iota => .phaseIota
  | .sqz => .phaseSqz

/-- The decoder of both kinds of code. -/
def decode : Code → Except DecodeError Instr
  | .command w => decodeCommand w
  | .phase p => .ok (Phase.ofCode p).toInstr

/-- The command word whose bytes, lowest address first, are `b0 b1 b2 b3` (20_memory.md R42). -/
def wordOfBytes (b0 b1 b2 b3 : Byte) : Word := b3 ++ b2 ++ b1 ++ b0

/-- Decoding any byte string: "a decoder always reads exactly one 32-bit word per command" (R65). -/
def decodeBytes : List Byte → Except DecodeError Instr
  | [b0, b1, b2, b3] => decodeCommand (wordOfBytes b0 b1 b2 b3)
  | _ => .error .badLength

/-- The code of a phase (R66). -/
def Phase.code : Phase → BitVec 3
  | .idle => 0b000#3
  | .clr => 0b001#3
  | .xor => 0b010#3
  | .theta => 0b011#3
  | .rhopi => 0b100#3
  | .chi => 0b101#3
  | .iota => 0b110#3
  | .sqz => 0b111#3

/-- A word of format K from its fields, `RES1` and `RES0` zero (R60, R63). -/
def commandWord (op : BitVec 4) (n : BitVec 8) : Word :=
  (n.setWidth 32 <<< 8) ||| op.setWidth 32

/-- The encoder: a command's word (R61), a phase's code (R66). -/
def encode : Instr → Code
  | .init => .command (commandWord opInit 0#8)
  | .absorb => .command (commandWord opAbsorb 0#8)
  | .final n => .command (commandWord opFinal n)
  | .permute => .command (commandWord opPermute 0#8)
  | .squeeze => .command (commandWord opSqueeze 0#8)
  | .phaseIdle => .phase Phase.idle.code
  | .phaseClr => .phase Phase.clr.code
  | .phaseXor => .phase Phase.xor.code
  | .phaseTheta => .phase Phase.theta.code
  | .phaseRhopi => .phase Phase.rhopi.code
  | .phaseChi => .phase Phase.chi.code
  | .phaseIota => .phase Phase.iota.code
  | .phaseSqz => .phase Phase.sqz.code

/-- The code a table word stands for. The two code spaces overlap as numbers (phase 0b011 and FINAL 0), so the
number of bits says which one is meant: a phase row has 3 bits, one byte, a command row 32 bits. A word with a
bit set above its row's own bits is none (log entry 3). -/
def tableCode (nbits w : Nat) : Option Code :=
  if nbits ≤ 8 then (if w < 8 then some (.phase (BitVec.ofNat 3 w)) else none)
  else if w < 4294967296 then some (.command (BitVec.ofNat 32 w)) else none

/-- What the decoder reads from a table word: a command word is laid out as four little-endian bytes and given
to `decodeBytes`; a phase code to `decode`. -/
def decodeTableWord (nbits w : Nat) : Option Instr :=
  match tableCode nbits w with
  | some (.phase p) => (decode (.phase p)).toOption
  | some (.command c) =>
    (decodeBytes [c.extractLsb' 0 8, c.extractLsb' 8 8, c.extractLsb' 16 8, c.extractLsb' 24 8]).toOption
  | none => none

end Sys2Proof
end

