-- ==== Sys2Proof/Machine/State.lean ====
section
/-! DEFINITION. The state of the engine (10_state.md R20 to R34), the model's two fields of its own, the reasons
a step can stop, and the state after reset (70_reset_and_hazards.md R180). -/

namespace Sys2Proof.Machine

/-- The bytes the register window stores, as (window offset, byte) pairs in ONE canonical form (`Memory.wf`):
`BLK` at 0x000..0x087 and `DOUT` at 0x100..0x11F (20_memory.md R41). -/
abbrev Memory := List Host.Cell

/-- Why a step can stop. The spec gives the engine no trap (60_exceptions.md R166): every reason here is a case
the spec calls unreachable, and the invariant of Safety.lean rules each of them out. -/
inductive Fault where
  /-- A phase row run while `PHASE` names another phase: "it is enabled exactly when `PHASE` holds its name"
  (42_commands.md section 3). Raised by every phase meaning; `step` never raises it. Safe (log entry 4). -/
  | phaseNotEnabled (p : Phase)
  /-- IOTA with `RND` in 24..31 (10_state.md R29; 93_implementation_defined.md V6 "fault if reached"). Raised by
  the IOTA phase. Safe (log entry 5). -/
  | rndOutOfRange
  /-- XOR with `PEND.OP` neither ABSORB nor FINAL (42_commands.md R138; V7 "fault if reached"). Raised by the XOR
  phase. Safe (log entry 5). -/
  | xorWithoutBlockCommand
  /-- XOR of FINAL with `PEND.N` over 135, where PADBLOCK is not defined (41_sponge.md R119). Raised by the XOR
  phase. Safe (log entry 5). -/
  | padLengthOutOfRange
  deriving DecidableEq, Repr

/-- An instruction without a meaning. No arm of `exec` uses it. -/
inductive Refusal where
  /-- Not modelled yet. Safe. Raised by no instruction of this model. -/
  | notModelled (mnemonic : String)
  deriving DecidableEq, Repr

/-- One host access to the register window: `n` bytes at offset `off` (20_memory.md R40, R44, R45). A write's
value is carried in 64 bits, the widest legal access. -/
inductive Access where
  | read (off : Offset) (n : Nat)
  | write (off : Offset) (n : Nat) (v : BitVec 64)
  deriving DecidableEq, Repr

/-- What happens next at the engine: one host access, one step of the sequencer, or a reset (00_scope.md R12;
20_memory.md R49; 70_reset_and_hazards.md R181). -/
inductive Turn where
  | host (a : Access)
  | engine
  | reset
  deriving DecidableEq, Repr

/-- The pending-command latch `PEND` (10_state.md R31). -/
structure Pend where
  op : BitVec 4
  n  : BitVec 8
  deriving DecidableEq, Repr

/-- The state of the engine. `CMD` is not storage (R24), `CONFIG` is a constant (R26), `BUSY` and the reserved
bits of `STATUS` are derived or hardwired (R25): none of these has a field. -/
@[ext]
structure State where
  /-- The lanes `A[0..24]` (R20). -/
  lanes   : Lanes
  /-- The bytes of `BLK` (R22) and `DOUT` (R23). -/
  mem     : Memory
  /-- `STATUS.ERR_CMD` (R25). -/
  errCmd  : Bool
  /-- `STATUS.ERR_BUSY` (R25). -/
  errBusy : Bool
  /-- `STATUS.ERR_ACC` (R25). -/
  errAcc  : Bool
  /-- The round-constant register `R` (R28). -/
  r       : BitVec 8
  /-- The round counter `RND` (R29). -/
  rnd     : BitVec 5
  /-- The sequencer state `PHASE` (R30). -/
  phase   : Phase
  /-- The pending-command latch `PEND` (R31). -/
  pend    : Pend
  /-- The model's own: the interleaving of R49, next turn first; with none listed the sequencer moves
  (DESIGN CHOICE, log entry 1). -/
  turns   : List Turn
  /-- The model's own: the values the bus returned to the host's reads, newest first (DESIGN CHOICE, log
  entry 2). -/
  reads   : List (BitVec 64)
  deriving DecidableEq, Repr

/-- The state after reset (70_reset_and_hazards.md R180). -/
def State.reset : State where
  lanes   := Vector.replicate 25 0#64
  mem     := []
  errCmd  := false
  errBusy := false
  errAcc  := false
  r       := 0x01#8
  rnd     := 0#5
  phase   := .idle
  pend    := { op := 0#4, n := 0#8 }
  turns   := []
  reads   := []

end Sys2Proof.Machine
end

