-- ==== Sys2Proof/Machine/Ops.lean ====
section
/-! DEFINITION. The named operations on bytes, on the window's stored bytes, on lanes, and the one operation of
raising an error (60_exceptions.md R160). -/

namespace Sys2Proof.Machine

/-- An outcome of this machine. -/
abbrev Result := Host.Outcome State Fault Refusal

/-! ### Bytes and byte order (20_memory.md R42) -/

/-- Byte `k` of a value: bits `[8k+7:8k]` (R42). -/
def byteOf (v : BitVec 64) (k : Nat) : Byte := v.extractLsb' (8 * k) 8

/-- The little-endian value of the `n` bytes `f 0 .. f (n-1)`:
`sum_{k=0}^{n-1} zext_64(f k) << (8k)` (R44; 41_sponge.md R112). -/
def leValue (n : Nat) (f : Nat → Byte) : BitVec 64 :=
  (List.range n).foldl (fun acc k => acc + ((f k).setWidth 64 <<< (8 * k))) 0#64

/-- The `n` bytes of a value, lowest offset first (R45). -/
def bytesOf (n : Nat) (v : BitVec 64) : List Byte := (List.range n).map (byteOf v)

/-! ### The window's stored bytes (20_memory.md R41) -/

/-- What an unlisted offset reads as: 0x00, the reset value of every byte of `BLK` and `DOUT`
(70_reset_and_hazards.md R180). -/
def Memory.unlisted : Byte := 0x00#8

/-- The canonical form: offsets strictly rising, and no listed byte equal to the unlisted one. -/
abbrev Memory.wf (m : Memory) : Prop :=
  m.Pairwise (fun c d => c.1 < d.1) ∧ ∀ c ∈ m, c.2 ≠ Memory.unlisted

/-- The byte at an offset. -/
def Memory.read : Memory → Nat → Byte
  | [], _ => Memory.unlisted
  | c :: m, a => if c.1 = a then c.2 else Memory.read m a

/-- The memory without an entry for an offset. -/
def Memory.erase (m : Memory) (a : Nat) : Memory := m.filter (fun c => c.1 ≠ a)

/-- An entry put before the first entry of a higher offset. -/
def Memory.insert : Memory → Nat → Byte → Memory
  | [], a, b => [(a, b)]
  | c :: m, a, b => if a < c.1 then (a, b) :: c :: m else c :: Memory.insert m a b

/-- One byte written; writing the unlisted byte removes the entry. -/
def Memory.write (m : Memory) (a : Nat) (b : Byte) : Memory :=
  if b = Memory.unlisted then m.erase a else (m.erase a).insert a b

/-- Consecutive bytes written from an offset on. -/
def Memory.writeBytes : Memory → Nat → List Byte → Memory
  | m, _, [] => m
  | m, a, b :: bs => Memory.writeBytes (m.write a b) (a + 1) bs

/-- The first offset of `BLK` (R41). -/
abbrev blkBase : Nat := 0x000
/-- The first offset of `DOUT` (R41). -/
abbrev doutBase : Nat := 0x100

/-- `BLK[0..135]` (10_state.md R22). -/
def State.block (s : State) : Block := Vector.ofFn fun k => s.mem.read (blkBase + k.val)

/-- `DOUT[0..31]` (10_state.md R23). -/
def State.dout (s : State) : Digest := Vector.ofFn fun j => s.mem.read (doutBase + j.val)

/-- `for j in 0..31: DOUT[j] <- d[j]` (42_commands.md R137, R143). -/
def State.setDout (s : State) (d : Digest) : State := { s with mem := s.mem.writeBytes doutBase d.toList }

/-! ### Lanes (00_scope.md R10) -/

/-- `idx(x, y) = x + 5*y` (R10). -/
def idx (x y : Fin 5) : Fin 25 := ⟨x.val + 5 * y.val, by omega⟩

/-- The column `x` of a linear index (R10). -/
def colOf (i : Fin 25) : Fin 5 := ⟨i.val % 5, Nat.mod_lt _ (by decide)⟩

/-- The row `y` of a linear index (R10). -/
def rowOf (i : Fin 25) : Fin 5 := ⟨i.val / 5, by omega⟩

/-- `A(x, y)` (R10). -/
def laneAt (A : Lanes) (x y : Fin 5) : Lane := A[idx x y]

/-- `A(x, y) <- v` (R10). -/
def setLaneAt (A : Lanes) (x y : Fin 5) (v : Lane) : Lanes := A.set (idx x y) v

/-! ### Raising an error (60_exceptions.md R160)

The engine has no trap (R166): raising an error sets one sticky flag and changes nothing else, and there is no
return from it (R167): the flags are cleared by reset and by the issue of INIT. -/

/-- The three error flags (10_state.md R25). -/
inductive ErrFlag where
  | acc
  | busy
  | cmd
  deriving DecidableEq, Repr

/-- `raise ERR_X` (60_exceptions.md R160). -/
def State.raise (s : State) : ErrFlag → State
  | .acc => { s with errAcc := true }
  | .busy => { s with errBusy := true }
  | .cmd => { s with errCmd := true }

/-- The clearing of the three flags at the issue of INIT (42_commands.md R130). -/
def State.clearErrors (s : State) : State := { s with errCmd := false, errBusy := false, errAcc := false }

end Sys2Proof.Machine
end

