-- ==== Sys2Proof/Machine/Flags.lean ====
section
/-! DEFINITION. The `STATUS` register (10_state.md R25). There are no other flags: no operation of the engine
sets a carry, an overflow or a zero flag (R33). -/

namespace Sys2Proof.Machine

/-- `STATUS.BUSY`: "1 exactly when `PHASE != IDLE`; no separate storage" (R25, R30). -/
def State.busy (s : State) : Bool := decide (s.phase ≠ .idle)

/-- The sticky error flag of a name (R25). -/
def State.err (s : State) : ErrFlag → Bool
  | .acc => s.errAcc
  | .busy => s.errBusy
  | .cmd => s.errCmd

/-- A flag as one bit. -/
def flagBit (b : Bool) : BitVec 1 := if b then 1#1 else 0#1

/-- `zext_32({ERR_ACC, ERR_BUSY, ERR_CMD, BUSY})`, `BUSY` in bit 0 (20_memory.md R44; 10_state.md R25). -/
def State.status (s : State) : Word :=
  (flagBit s.errAcc ++ flagBit s.errBusy ++ flagBit s.errCmd ++ flagBit s.busy).setWidth 32

end Sys2Proof.Machine
end

