-- ==== Sys2Proof/Machine/Commands.lean ====
section
/-! DEFINITION. The meanings of the five commands: what the write of a command's word to `CMD` does
(20_memory.md R45; 42_commands.md R130 to R135; 60_exceptions.md R162 to R164). -/

namespace Sys2Proof.Machine

/-- The busy check and the encoding check of a legal write to `CMD`, in the order of R164: while busy the command
is ignored and `ERR_BUSY` raised; while idle a word that is no legal encoding raises `ERR_CMD`; a legal one is
issued, atomically with the write (R130). -/
def State.issueWith (s : State) (legal : Bool) (issued : State) : Result :=
  .next (if s.busy then s.raise .busy else if legal then issued else s.raise .cmd)

/-- `PEND.OP <- op; PEND.N <- n` (R130). -/
def State.latch (s : State) (op : BitVec 4) (n : BitVec 8) : State := { s with pend := { op := op, n := n } }

/-- `R <- 0x01; RND <- 0`, the seeding of a permuting command (R130). -/
def State.seed (s : State) : State := { s with r := Config.lfsrSeed, rnd := 0#5 }

/-- `PHASE <- p` (R130). -/
def State.enter (s : State) (p : Phase) : State := { s with phase := p }

/-- A legal write to `CMD` of a word that decodes to no command (30_encoding.md R64). -/
def State.rejectWord (s : State) : Result := s.issueWith false s

/-- `INIT` (42_commands.md R131): clears the three error flags at issue; its one phase is CLR. -/
def execInit (s : State) : Result := s.issueWith true ((s.latch opInit 0#8).clearErrors.enter .clr)

/-- `ABSORB` (R132). -/
def execAbsorb (s : State) : Result := s.issueWith true ((s.latch opAbsorb 0#8).seed.enter .xor)

/-- `FINAL N` (R133): `N >= 136` is an illegal encoding and raises `ERR_CMD`. -/
def execFinal (n : BitVec 8) (s : State) : Result :=
  s.issueWith (decide (n.toNat ≤ 135)) ((s.latch opFinal n).seed.enter .xor)

/-- `PERMUTE` (R134). -/
def execPermute (s : State) : Result := s.issueWith true ((s.latch opPermute 0#8).seed.enter .theta)

/-- `SQUEEZE` (R135). -/
def execSqueeze (s : State) : Result := s.issueWith true ((s.latch opSqueeze 0#8).enter .sqz)

end Sys2Proof.Machine
end

