-- ==== Sys2Proof/Machine/Operands.lean ====
section
/-! DEFINITION. The operands: the packing of a block into lanes (41_sponge.md R112), the padded final block
(R119), and the block the XOR phase takes (42_commands.md R138). FINAL's own operand `N` is read by the decoder
(30_encoding.md R62). -/

namespace Sys2Proof.Machine

/-- Byte `k` of a block, 0x00 past its end (an offset no rule asks for). -/
def blockByte (b : Block) (k : Nat) : Byte := if h : k < 136 then b[k] else 0x00#8

/-- `lanes17(b)`: lane `i` is the little-endian value of bytes `8i .. 8i+7` (R112). -/
def lanes17 (b : Block) : Vector Lane 17 := Vector.ofFn fun i => leValue 8 fun k => blockByte b (8 * i.val + k)

/-- PADBLOCK with the two markers as a parameter (R119; 92_eei_decisions.md D6): the first `n` bytes of `b`, then
0x00, the first marker in byte `n` and the last marker in byte 135. Defined by the spec for `n` in 0..135. -/
def padBlockWith (pm : PadMarkers) (b : Block) (n : Nat) : Block := Vector.ofFn fun k =>
  (if k.val < n then b[k] else 0x00#8)
    ||| (if k.val = n then pm.first else 0x00#8)
    ||| (if k.val = 135 then pm.last else 0x00#8)

/-- `PADBLOCK(b, N)` (R119), with the spec's markers 0x01 and 0x80. -/
def padBlock (b : Block) (n : Nat) : Block := padBlockWith Config.padMarkers b n

/-- The block the XOR phase absorbs (42_commands.md R138): `BLK` for ABSORB, the padded block for FINAL. Any
other `PEND` is the spec's unreachable case (93_implementation_defined.md V7), a fault. -/
def State.xorOperand (s : State) : Except Fault Block :=
  if s.pend.op = opAbsorb then .ok s.block
  else if s.pend.op = opFinal then
    if s.pend.n.toNat ≤ 135 then .ok (padBlock s.block s.pend.n.toNat) else .error .padLengthOutOfRange
  else .error .xorWithoutBlockCommand

end Sys2Proof.Machine
end

