-- ==== Sys2Proof/Machine/Permutation.lean ====
section
/-! DEFINITION. The permutation Keccak-f[1600] as pure operations on the lanes and the round-constant register
(40_permutation.md R80 to R95). -/

namespace Sys2Proof.Machine

/-- `rotl64(a, r) = ((a << r) ^ (a >> (64 - r)))[63:0]` for `r` in 1..63 (R82). At `r = 0` the formula gives `a`,
the option 92_eei_decisions.md D27 allows; no rule rotates by 0 or by 64 or more (R83, R87; log entry 6). -/
def rotl64 (a : Lane) (r : Nat) : Lane := (a <<< r) ^^^ (a >>> (64 - r))

/-! ### Theta (R84) -/

/-- The column parity `C[x]` (R84). -/
def thetaC (A : Lanes) (x : Fin 5) : Lane :=
  laneAt A x 0 ^^^ laneAt A x 1 ^^^ laneAt A x 2 ^^^ laneAt A x 3 ^^^ laneAt A x 4

/-- `D[x] = C[(x+4) mod 5] ^ rotl64(C[(x+1) mod 5], 1)` (R84); addition on `Fin 5` is modulo 5. -/
def thetaD (A : Lanes) (x : Fin 5) : Lane := thetaC A (x + 4) ^^^ rotl64 (thetaC A (x + 1)) 1

/-- THETA (R84): every parity is taken from the lanes before the step. -/
def theta (A : Lanes) : Lanes := Vector.ofFn fun i => A[i] ^^^ thetaD A (colOf i)

/-! ### Rho and pi (R85) -/

/-- The offset of the walk's move `t`: `((t+1)*(t+2)/2) mod 64` (R85). -/
def rhoOffset (t : Nat) : Nat := (t + 1) * (t + 2) / 2 % 64

/-- Where the walk of R85 stands: its position, the carried lane `cur`, and the lanes. -/
structure RhoWalk where
  x     : Fin 5
  y     : Fin 5
  cur   : Lane
  lanes : Lanes
  deriving DecidableEq, Repr

/-- Move `t` of the walk (R85): both new coordinates come from the old ones; the carried lane, rotated, lands at
the new position, and the lane it displaces is carried on. -/
def rhoMove (w : RhoWalk) (t : Nat) : RhoWalk where
  x := w.y
  y := 2 * w.x + 3 * w.y
  cur := laneAt w.lanes w.y (2 * w.x + 3 * w.y)
  lanes := setLaneAt w.lanes w.y (2 * w.x + 3 * w.y) (rotl64 w.cur (rhoOffset t))

/-- RHO_PI (R85): the walk from (1, 0), 24 moves. -/
def rhoPi (A : Lanes) : Lanes :=
  ((List.range 24).foldl rhoMove { x := 1, y := 0, cur := laneAt A 1 0, lanes := A }).lanes

/-- One row of the table form of RHO_PI: `A'[dst] = rotl64(A[src], r)` (R86). -/
structure RhoRow where
  dst : Fin 25
  src : Fin 25
  r   : Nat
  deriving DecidableEq, Repr

/-- The table form of RHO_PI (R86), derived by the spec from the walk; the machine performs the walk. -/
def rhoPiTable : List RhoRow :=
  [⟨1, 6, 44⟩, ⟨2, 12, 43⟩, ⟨3, 18, 21⟩, ⟨4, 24, 14⟩, ⟨5, 3, 28⟩, ⟨6, 9, 20⟩, ⟨7, 10, 3⟩, ⟨8, 16, 45⟩]
  ++ [⟨9, 22, 61⟩, ⟨10, 1, 1⟩, ⟨11, 7, 6⟩, ⟨12, 13, 25⟩, ⟨13, 19, 8⟩, ⟨14, 20, 18⟩, ⟨15, 4, 27⟩, ⟨16, 5, 36⟩]
  ++ [⟨17, 11, 10⟩, ⟨18, 17, 15⟩, ⟨19, 23, 56⟩, ⟨20, 2, 62⟩, ⟨21, 8, 55⟩, ⟨22, 14, 39⟩, ⟨23, 15, 41⟩, ⟨24, 21, 2⟩]

/-! ### Chi (R89) -/

/-- CHI (R89): each row from its own snapshot. -/
def chi (A : Lanes) : Lanes := Vector.ofFn fun i =>
  A[i] ^^^ (~~~(laneAt A (colOf i + 1) (rowOf i)) &&& laneAt A (colOf i + 2) (rowOf i))

/-! ### The round-constant register and iota (R90, R92) -/

/-- `lfsr_step(R) = ((R << 1) ^ ((R >> 7) * 0x71))[7:0]` (R90). -/
def lfsrStep (r : BitVec 8) : BitVec 8 := (r <<< 1) ^^^ ((r >>> 7) * Config.lfsrPoly)

/-- One bit position of iota (R92): advance the register, then flip bit `2^j - 1` of the lane when bit 1 of the
advanced register is set. -/
def iotaBit (p : Lane × BitVec 8) (j : Nat) : Lane × BitVec 8 :=
  (if (lfsrStep p.2).getLsbD 1 then p.1 ^^^ (1#64 <<< (2 ^ j - 1)) else p.1, lfsrStep p.2)

/-- IOTA on lane (0, 0) and the register: seven bit positions (R92). -/
def iotaLane (a : Lane) (r : BitVec 8) : Lane × BitVec 8 := (List.range 7).foldl iotaBit (a, r)

/-- IOTA (R92): "Only `A[0]` changes". -/
def iota (A : Lanes) (r : BitVec 8) : Lanes × BitVec 8 :=
  (A.set 0 (iotaLane A[0] r).1, (iotaLane A[0] r).2)

/-- The register after `k` advances from a value (R91). -/
def lfsrAfter (r : BitVec 8) (k : Nat) : BitVec 8 := lfsrStep^[k] r

/-- The 24 round constants of R93, a table derived by the spec; the machine uses the register (R92). -/
def roundConstants : List Lane :=
  [0x0000000000000001#64, 0x0000000000008082#64, 0x800000000000808A#64, 0x8000000080008000#64,
   0x000000000000808B#64, 0x0000000080000001#64, 0x8000000080008081#64, 0x8000000000008009#64,
   0x000000000000008A#64, 0x0000000000000088#64, 0x0000000080008009#64, 0x000000008000000A#64]
  ++ [0x000000008000808B#64, 0x800000000000008B#64, 0x8000000000008089#64, 0x8000000000008003#64,
   0x8000000000008002#64, 0x8000000000000080#64, 0x000000000000800A#64, 0x800000008000000A#64,
   0x8000000080008081#64, 0x8000000000008080#64, 0x0000000080000001#64, 0x8000000080008008#64]

/-! ### The round and the permutation (R94, R95) -/

/-- ROUND (R94): theta, rho-pi, chi, iota. -/
def keccakRound (p : Lanes × BitVec 8) : Lanes × BitVec 8 := iota (chi (rhoPi (theta p.1))) p.2

/-- KECCAK_F with the register it leaves (R95): the register is seeded once, then 24 rounds. -/
def keccakFull (A : Lanes) : Lanes × BitVec 8 := keccakRound^[Config.rounds] (A, Config.lfsrSeed)

/-- KECCAK_F on the lanes (R95). -/
def keccakF (A : Lanes) : Lanes := (keccakFull A).1

end Sys2Proof.Machine
end

