-- ==== Sys2Proof/Machine/Sponge.lean ====
section
/-! DEFINITION. The sponge as pure operations: padding, absorption, squeeze and the hash (41_sponge.md R110 to
R119). -/

namespace Sys2Proof.Machine

/-- The number of blocks of a padded message of `L` bytes: `floor(L / 136) + 1` (R110). -/
def numBlocks (L : Nat) : Nat := L / 136 + 1

/-- PAD with the two markers as a parameter (R110; 92_eei_decisions.md D6). -/
def padWith (pm : PadMarkers) (M : List Byte) : List Byte :=
  (List.range (136 * numBlocks M.length)).map fun k =>
    (if k < M.length then M.getD k 0x00#8 else 0x00#8)
      ||| (if k = M.length then pm.first else 0x00#8)
      ||| (if k = 136 * numBlocks M.length - 1 then pm.last else 0x00#8)

/-- `PAD(M)` (R110), with the spec's markers 0x01 and 0x80. -/
def pad (M : List Byte) : List Byte := padWith Config.padMarkers M

/-- Block `k` of a byte string: its bytes `136k .. 136k+135` (R117), 0x00 past its end. -/
def blockAt (P : List Byte) (k : Nat) : Block := Vector.ofFn fun i => P.getD (136 * k + i.val) 0x00#8

/-- `XOR_BLOCK(blk)`: lanes 0..16 take the XOR, lanes 17..24 are unchanged (R113). -/
def xorBlock (A : Lanes) (blk : Vector Lane 17) : Lanes := Vector.ofFn fun i =>
  if h : i.val < 17 then A[i] ^^^ blk[i.val] else A[i]

/-- `ABSORB_BLOCK(b)` (R114). -/
def absorbBlock (A : Lanes) (b : Block) : Lanes := keccakF (xorBlock A (lanes17 b))

/-- `bytes(A)[8*i + k] = A[i][8*k+7 : 8*k]` (R115). -/
def bytesOfLanes (A : Lanes) : Vector Byte 200 := Vector.ofFn fun j =>
  byteOf (A[j.val / 8]'(by omega)) (j.val % 8)

/-- `SQUEEZE_OUT(A)`, the first 32 bytes of `bytes(A)` (R116). -/
def squeezeOut (A : Lanes) : Digest := Vector.ofFn fun j => (bytesOfLanes A)[j.val]'(by omega)

/-- The zero state a hash begins with (R117). -/
def zeroLanes : Lanes := Vector.replicate 25 0#64

/-- The lanes after absorbing the first `k` blocks of `P` in order (R114, R117). -/
def absorbBlocks (A : Lanes) (P : List Byte) (k : Nat) : Lanes :=
  (List.range k).foldl (fun B j => absorbBlock B (blockAt P j)) A

/-- HASH with the markers as a parameter (R117; D6). -/
def keccak256With (pm : PadMarkers) (M : List Byte) : Digest :=
  squeezeOut (absorbBlocks zeroLanes (padWith pm M) ((padWith pm M).length / 136))

/-- `HASH(M)`, the Keccak-256 digest (R117). -/
def keccak256 (M : List Byte) : Digest := keccak256With Config.padMarkers M

end Sys2Proof.Machine
end

