-- ==== Sys2Proof/Machine/Phases.lean ====
section
/-! DEFINITION. The meanings of the eight sequencer phases, one step of the engine each (42_commands.md R137 to
R144). -/

namespace Sys2Proof.Machine

/-- A phase "is enabled exactly when `PHASE` holds its name" (42_commands.md section 3); where it is not enabled
there is no such step (log entry 4). -/
def State.whenPhase (s : State) (p : Phase) (act : Result) : Result :=
  if s.phase = p then act else .fault (.phaseNotEnabled p)

/-- Phase `IDLE` (R144): "the engine has no step"; the state is kept (60_exceptions.md R174; log entry 1). -/
def execPhaseIdle (s : State) : Result := s.whenPhase .idle (.next s)

/-- Phase `CLR` (R137). -/
def execPhaseClr (s : State) : Result :=
  s.whenPhase .clr
    (.next ((({ s with lanes := zeroLanes } : State).setDout (Vector.replicate 32 0x00#8)).enter .idle))

/-- Phase `XOR` (R138). -/
def execPhaseXor (s : State) : Result :=
  s.whenPhase .xor
    (match s.xorOperand with
      | .ok b => .next (({ s with lanes := xorBlock s.lanes (lanes17 b) } : State).enter .theta)
      | .error e => .fault e)

/-- Phase `THETA` (R139). -/
def execPhaseTheta (s : State) : Result :=
  s.whenPhase .theta (.next (({ s with lanes := theta s.lanes } : State).enter .rhopi))

/-- Phase `RHOPI` (R140). -/
def execPhaseRhopi (s : State) : Result :=
  s.whenPhase .rhopi (.next (({ s with lanes := rhoPi s.lanes } : State).enter .chi))

/-- Phase `CHI` (R141). -/
def execPhaseChi (s : State) : Result :=
  s.whenPhase .chi (.next (({ s with lanes := chi s.lanes } : State).enter .iota))

/-- The round loop that closes IOTA (R142): the next round while `RND < 23`; after the 24th, SQZ for FINAL and
IDLE for ABSORB and PERMUTE. -/
def State.closeRound (s : State) : State :=
  if s.rnd.toNat < 23 then ({ s with rnd := s.rnd + 1#5 } : State).enter .theta
  else if s.pend.op = opFinal then s.enter .sqz
  else s.enter .idle

/-- Phase `IOTA` (R142). `RND` in 24..31 is the spec's unreachable case (93_implementation_defined.md V6). -/
def execPhaseIota (s : State) : Result :=
  s.whenPhase .iota
    (if s.rnd.toNat ≤ 23 then
      .next (({ s with lanes := (iota s.lanes s.r).1, r := (iota s.lanes s.r).2 } : State).closeRound)
    else .fault .rndOutOfRange)

/-- Phase `SQZ` (R143). -/
def execPhaseSqz (s : State) : Result :=
  s.whenPhase .sqz (.next ((s.setDout (squeezeOut s.lanes)).enter .idle))

end Sys2Proof.Machine
end

