-- ==== Sys2Proof/Machine/Dispatch.lean ====
section
/-! DEFINITION. One arm for each row of the opcode table. -/

namespace Sys2Proof.Machine

def exec (i : Instr) (s : State) : Host.Outcome State Fault Refusal :=
  match i with
  -- the commands (42_commands.md R131 to R135)
  | .init => Sys2Proof.Machine.execInit s
  | .absorb => Sys2Proof.Machine.execAbsorb s
  | .final n => Sys2Proof.Machine.execFinal n s
  | .permute => Sys2Proof.Machine.execPermute s
  | .squeeze => Sys2Proof.Machine.execSqueeze s
  -- the sequencer's phases (42_commands.md R137 to R144)
  | .phaseIdle => Sys2Proof.Machine.execPhaseIdle s
  | .phaseClr => Sys2Proof.Machine.execPhaseClr s
  | .phaseXor => Sys2Proof.Machine.execPhaseXor s
  | .phaseTheta => Sys2Proof.Machine.execPhaseTheta s
  | .phaseRhopi => Sys2Proof.Machine.execPhaseRhopi s
  | .phaseChi => Sys2Proof.Machine.execPhaseChi s
  | .phaseIota => Sys2Proof.Machine.execPhaseIota s
  | .phaseSqz => Sys2Proof.Machine.execPhaseSqz s

end Sys2Proof.Machine
end

