-- ==== Sys2Proof/Machine/Window.lean ====
section
/-! DEFINITION. The host register window: its map, the legality of an access, and the two access primitives
(20_memory.md R40 to R47). -/

namespace Sys2Proof.Machine

/-- The rows of the window's map (R41). -/
inductive Region where
  | blk
  | dout
  | cmd
  | status
  | config
  | reserved
  deriving DecidableEq, Repr

/-- The row of R41 that holds an offset. -/
def region (off : Offset) : Region :=
  if off.toNat < 0x088 then .blk
  else if 0x100 ≤ off.toNat ∧ off.toNat < 0x120 then .dout
  else if 0x200 ≤ off.toNat ∧ off.toNat < 0x204 then .cmd
  else if 0x204 ≤ off.toNat ∧ off.toNat < 0x208 then .status
  else if 0x208 ≤ off.toNat ∧ off.toNat < 0x20C then .config
  else .reserved

/-- The direction of an access (R43). -/
inductive Dir where
  | read
  | write
  deriving DecidableEq, Repr

/-- Width 1, 2, 4 or 8 and natural alignment (R43). -/
def byteAccess (off : Offset) (n : Nat) : Bool :=
  decide (n ∈ [1, 2, 4, 8]) && decide (off.toNat % n = 0)

/-- `legal(off, n, dir)` (R43). -/
def legal (off : Offset) (n : Nat) (dir : Dir) : Bool :=
  match region off with
  | .blk => byteAccess off n
  | .dout => byteAccess off n && decide (dir = .read)
  | .cmd => decide (off = 0x200#10) && decide (n = 4)
  | .status => decide (off = 0x204#10) && decide (n = 4) && decide (dir = .read)
  | .config => decide (off = 0x208#10) && decide (n = 4) && decide (dir = .read)
  | .reserved => false

/-- The value of a legal read (R44), zero-extended to 64 bits. `CMD` reads as 0 (10_state.md R24). -/
def readValue (s : State) (off : Offset) (n : Nat) : BitVec 64 :=
  match region off with
  | .blk => leValue n fun k => s.mem.read (off.toNat + k)
  | .dout => leValue n fun k => s.mem.read (off.toNat + k)
  | .cmd => 0#64
  | .status => s.status.setWidth 64
  | .config => Config.configWord.setWidth 64
  | .reserved => 0#64

/-- `MemRead(off, n)` (R44, R46): the value read and the state after. A legal read has no side effect; an illegal
one returns 0 and raises `ERR_ACC`. -/
def memRead (off : Offset) (n : Nat) (s : State) : BitVec 64 × State :=
  if legal off n .read then (readValue s off n, s) else (0#64, s.raise .acc)

/-- A legal write to `CMD`: the word is decoded (30_encoding.md R61) and its instruction run; a word that
decodes to none is rejected (R64). The meanings and `rejectWord` check `BUSY` first (R45, 60_exceptions.md R164). -/
def writeCommand (w : Word) (s : State) : Result :=
  match decodeCommand w with
  | .ok i => exec i s
  | .error _ => s.rejectWord

/-- A legal write to `BLK` (R45): while busy it is discarded and raises `ERR_BUSY`. -/
def writeBlk (off : Offset) (n : Nat) (v : BitVec 64) (s : State) : Result :=
  .next (if s.busy then s.raise .busy else { s with mem := s.mem.writeBytes off.toNat (bytesOf n v) })

/-- `MemWrite(off, n, v)` (R45, R46): legality is checked before `BUSY`. "No other legal write exists" than those
to `BLK` and to `CMD`: a legal write whose region is not `BLK` is one of `CMD`. -/
def memWrite (off : Offset) (n : Nat) (v : BitVec 64) (s : State) : Result :=
  if legal off n .write then
    if region off = .blk then writeBlk off n v s else writeCommand (v.setWidth 32) s
  else .next (s.raise .acc)

/-- One host access; the value of a read goes to the host (log entry 2). -/
def hostAccess : Access → State → Result
  | .read off n, s => .next { (memRead off n s).2 with reads := (memRead off n s).1 :: s.reads }
  | .write off n v, s => memWrite off n v s

/-- The window offset of a host address, if the address lies in the window: `off` is "its address minus `BASE`"
(R40). What lies outside is the platform's (R41). -/
def offsetOfAddress (addr : Nat) : Option Offset :=
  if Config.base ≤ addr ∧ addr < Config.base + Config.windowBytes then
    some (BitVec.ofNat 10 (addr - Config.base))
  else none

end Sys2Proof.Machine
end

