-- ==== Sys2Proof/Machine/Turns.lean ====
section
/-! DEFINITION. The three kinds of turn: a step of the sequencer, a host access, a reset (20_memory.md R49;
70_reset_and_hazards.md R181). -/

namespace Sys2Proof.Machine

/-- One step of the sequencer: the phase that `PHASE` names is run (42_commands.md section 3). -/
def engineTurn (s : State) : Result := exec s.phase.toInstr s

/-- Reset "whatever the engine was doing" (70_reset_and_hazards.md R180, R181). What the outside world does next
and what it has read are not the engine's state and stay. -/
def resetTurn (s : State) : State := { State.reset with turns := s.turns, reads := s.reads }

/-- One turn, in a state whose list of turns no longer holds it. -/
def takeTurn : Turn → State → Result
  | .host a, s => hostAccess a s
  | .engine, s => engineTurn s
  | .reset, s => .next (resetTurn s)

/-- The next turn: the head of the list, or the sequencer's own step where none is listed (log entry 1). -/
def nextTurn (s : State) : Result :=
  match s.turns with
  | [] => engineTurn s
  | t :: ts => takeTurn t { s with turns := ts }

/-- Where the next command word comes from: a 32-bit host write of it to `CMD` as the next turn (R45). -/
def fetchCommand (s : State) (w : Word) : State :=
  { s with turns := .host (.write 0x200#10 4 (w.setWidth 64)) :: s.turns }

/-- Where the next phase comes from: `PHASE` names it and the sequencer has the next turn. The XOR phase runs
only under ABSORB or FINAL (42_commands.md R138), so where neither is in flight ABSORB is put there. -/
def fetchPhase (s : State) (p : Phase) : State :=
  { s with
    phase := p
    turns := .engine :: s.turns
    pend := if p = .xor ∧ s.pend.op ≠ opAbsorb ∧ s.pend.op ≠ opFinal then { op := opAbsorb, n := 0#8 } else s.pend }

end Sys2Proof.Machine
end

