-- ==== Sys2Proof/Machine/Step.lean ====
section
/-! DEFINITION. One step of the machine, and the placing of one instruction where the next step takes it. -/

namespace Sys2Proof.Machine

/-- One step: the next turn. -/
def step (s : State) : Host.Outcome State Fault Refusal := nextTurn s

/-- The instruction of a table word put where the next step takes it: a command as the host's next access, a
phase as the sequencer's next step (log entry 3). A table word that stands for no code changes nothing. -/
def State.withFetchWord (s : State) (nbits w : Nat) : State :=
  match tableCode nbits w with
  | some (.command c) => fetchCommand s c
  | some (.phase p) => fetchPhase s (Phase.ofCode p)
  | none => s

end Sys2Proof.Machine
end

