-- ==== Sys2Proof/Machine/Script.lean ====
section
/-! DEFINITION. The host's script language, its pseudo-instructions and the two agents side by side
(30_encoding.md R67, R68; 00_scope.md R12; 20_memory.md R49). The engine never reads any of it: it is the host's
program, run beside the engine, with the agent that moves as an argument. -/

namespace Sys2Proof.Machine

/-- The widths of a script access, in bits 8, 16, 32 and 64 (R67). -/
inductive Width where
  | w8
  | w16
  | w32
  | w64
  deriving DecidableEq, Repr

/-- The width in bytes, `W/8` (R67). -/
def Width.bytes : Width → Nat
  | .w8 => 1
  | .w16 => 2
  | .w32 => 4
  | .w64 => 8

/-- One line of a script (R67). Comments carry nothing; names are already folded to one case (log entry 7). -/
inductive Line where
  /-- `wr.W off, v` -/
  | wr (w : Width) (off : Offset) (v : BitVec 64)
  /-- `rd.W off -> name` -/
  | rd (w : Width) (off : Offset) (name : String)
  /-- `if name[b] == v goto label` -/
  | ifGoto (name : String) (b : Nat) (v : Bool) (label : String)
  /-- `label:` -/
  | label (name : String)
  deriving DecidableEq, Repr

/-! ### Pseudo-instructions (R68) -/

/-- `cmd` of a command: `wr.32 0x200, word` (R68). A phase is no command and has no line. -/
def cmdLines (i : Instr) : List Line :=
  match encode i with
  | .command w => [.wr .w32 0x200#10 (w.setWidth 64)]
  | .phase _ => []

/-- `wait`: poll until `BUSY = 0` (R68). The label, which R68 writes as 1, is an argument, so that a script that
waits more than once can give each wait a label of its own (DESIGN CHOICE, log entry 7). -/
def waitLines (l : String) : List Line := [.label l, .rd .w32 0x204#10 "s", .ifGoto "s" 0 true l]

/-- `blk b0 .. b(m-1)`: the whole lanes by 64-bit writes, then each remaining byte (R68). -/
def blkLines (bs : List Byte) : List Line :=
  (List.range (bs.length / 8)).map
    (fun i => .wr .w64 (BitVec.ofNat 10 (8 * i)) (leValue 8 fun k => bs.getD (8 * i + k) 0x00#8))
  ++ (List.range (bs.length % 8)).map
    (fun j => .wr .w8 (BitVec.ofNat 10 (8 * (bs.length / 8) + j))
      ((bs.getD (8 * (bs.length / 8) + j) 0x00#8).setWidth 64))

/-- `digest -> d` (R68). -/
def digestLines : List Line :=
  [.rd .w64 0x100#10 "d0", .rd .w64 0x108#10 "d1", .rd .w64 0x110#10 "d2", .rd .w64 0x118#10 "d3"]

/-- Block `k` of a message: its bytes `136k .. 136k+135`, fewer at its end (42_commands.md R136). -/
def messageBlock (M : List Byte) (k : Nat) : List Byte := (M.drop (136 * k)).take 136

/-- `FINAL (L mod 136)` of a message of `L` bytes (42_commands.md R136). -/
def finalOf (M : List Byte) : Instr := .final (BitVec.ofNat 8 (M.length % 136))

/-- The hash program of 42_commands.md R136, its waits labelled by their place. -/
def hashProgram (M : List Byte) : List Line :=
  cmdLines .init ++ waitLines "i"
  ++ (List.range (M.length / 136)).flatMap
    (fun k => blkLines (messageBlock M k) ++ cmdLines .absorb ++ waitLines ("b" ++ toString k))
  ++ blkLines (messageBlock M (M.length / 136)) ++ cmdLines (finalOf M) ++ waitLines "f"
  ++ digestLines

/-! ### The host agent and the pair of agents -/

/-- The host agent: its script, its place in it, and the values it has read, newest first. -/
structure HostAgent where
  script : List Line
  pc     : Nat
  names  : List (String × BitVec 64)
  deriving DecidableEq, Repr

/-- The value of a name, 0 before anything was read into it (log entry 7). -/
def HostAgent.value (h : HostAgent) (name : String) : BitVec 64 :=
  match h.names.find? (fun p => p.1 == name) with
  | some p => p.2
  | none => 0#64

/-- The place of a label: where it stands more than once, the first of its places, and where it does not stand at
all, the end of the script. R67 says nothing of either (DESIGN CHOICE, log entry 7). -/
def HostAgent.place (h : HostAgent) (l : String) : Nat := h.script.findIdx (fun x => x == .label l)

/-- The host's next line moved past. -/
def HostAgent.advance (h : HostAgent) : HostAgent := { h with pc := h.pc + 1 }

/-- The two agents (00_scope.md R12). -/
structure System where
  host   : HostAgent
  engine : State
  deriving DecidableEq, Repr

/-- Which agent moves (20_memory.md R49). -/
inductive Agent where
  | host
  | sequencer
  deriving DecidableEq, Repr

/-- A host at the start of its script beside an engine. -/
def System.start (ls : List Line) (s : State) : System where
  host := { script := ls, pc := 0, names := [] }
  engine := s

/-- The outcome of an engine action, with the host agent beside it. -/
def withHost (h : HostAgent) : Result → Host.Outcome System Fault Refusal
  | .next s => .next { host := h, engine := s }
  | .fault f => .fault f
  | .refused f => .refused f

/-- The host performs its next line (R67); at the end of its script it does nothing more. -/
def System.hostStep (y : System) : Host.Outcome System Fault Refusal :=
  match y.host.script[y.host.pc]? with
  | some (.wr w off v) => withHost y.host.advance (memWrite off w.bytes v y.engine)
  | some (.rd w off name) =>
    .next { host := { y.host.advance with names := (name, (memRead off w.bytes y.engine).1) :: y.host.names }
            engine := (memRead off w.bytes y.engine).2 }
  | some (.ifGoto name b v l) =>
    .next { y with host :=
      if (y.host.value name).getLsbD b = v then { y.host with pc := y.host.place l } else y.host.advance }
  | some (.label _) => .next { y with host := y.host.advance }
  | none => .next y

/-- One step of the pair: the agent named moves. -/
def System.step (a : Agent) (y : System) : Host.Outcome System Fault Refusal :=
  match a with
  | .host => y.hostStep
  | .sequencer => withHost y.host (engineTurn y.engine)

/-- A run under a schedule: "every such interleaving is allowed" (20_memory.md R49), and each is a list of
agents. -/
def System.run : List Agent → System → Host.Outcome System Fault Refusal
  | [], y => .next y
  | a :: as, y =>
    match y.step a with
    | .next y' => System.run as y'
    | .fault f => .fault f
    | .refused f => .refused f

/-! ### The hash program as turns -/

/-- A line's access as a host turn; a line of host control flow has none. -/
def Line.turns : Line → List Turn
  | .wr w off v => [.host (.write off w.bytes v)]
  | .rd w off _ => [.host (.read off w.bytes)]
  | .ifGoto _ _ _ _ => []
  | .label _ => []

/-- The turns of several lines. -/
def lineTurns (ls : List Line) : List Turn := ls.flatMap Line.turns

/-- A command and the phase steps it takes (42_commands.md R146), in place of the wait that outlasts them. -/
def commandTurns (i : Instr) (steps : Nat) : List Turn := lineTurns (cmdLines i) ++ List.replicate steps .engine

/-- The hash program of R136 in the interleaving in which every wait ends as soon as the engine is idle. -/
def hashTurns (M : List Byte) : List Turn :=
  commandTurns .init 1
  ++ (List.range (M.length / 136)).flatMap
    (fun k => lineTurns (blkLines (messageBlock M k)) ++ commandTurns .absorb 97)
  ++ lineTurns (blkLines (messageBlock M (M.length / 136))) ++ commandTurns (finalOf M) 98
  ++ lineTurns digestLines

end Sys2Proof.Machine
end

