-- ==== Sys2Proof/Safety.lean ====
section
/-! DEFINITION. What counts as a safe run, and the words the statements use: the invariant of the machine, one
turn taken by an agent, the steps a command in flight has left, and the part of the state a command works on. -/

namespace Sys2Proof.Machine

/-- Which pending operations a phase can serve (42_commands.md R130 to R143). -/
def phaseServes : Phase → BitVec 4 → Bool
  | .idle, op => decide (op.toNat ≤ 5)
  | .clr, op => decide (op = opInit)
  | .xor, op => decide (op = opAbsorb) || decide (op = opFinal)
  | .theta, op => decide (op = opAbsorb) || decide (op = opFinal) || decide (op = opPermute)
  | .rhopi, op => decide (op = opAbsorb) || decide (op = opFinal) || decide (op = opPermute)
  | .chi, op => decide (op = opAbsorb) || decide (op = opFinal) || decide (op = opPermute)
  | .iota, op => decide (op = opAbsorb) || decide (op = opFinal) || decide (op = opPermute)
  | .sqz, op => decide (op = opFinal) || decide (op = opSqueeze)

/-- The phases of a round (40_permutation.md R81). -/
def inRound : Phase → Bool
  | .theta => true
  | .rhopi => true
  | .chi => true
  | .iota => true
  | .idle => false
  | .clr => false
  | .xor => false
  | .sqz => false

/-- An offset of `BLK` or of `DOUT` (20_memory.md R41): the only bytes the window stores. -/
def storedOffset (a : Nat) : Bool := decide (a < 0x088) || (decide (0x100 ≤ a) && decide (a < 0x120))

/-- The invariant of the machine. -/
structure State.Inv (s : State) : Prop where
  /-- The stored bytes are in canonical form. -/
  memWf : s.mem.wf
  /-- Only bytes of `BLK` and `DOUT` are stored (R41). -/
  memStored : ∀ c ∈ s.mem, storedOffset c.1 = true
  /-- "Values 24..31 never occur" (10_state.md R29). -/
  rndRange : s.rnd.toNat ≤ 23
  /-- The operation in flight is one that enters the phase (42_commands.md R138: "`PEND.OP` is 0x2 or 0x3 here"). -/
  pendServes : phaseServes s.phase s.pend.op = true
  /-- `PEND.N` is FINAL's operand, 0 for the others (10_state.md R31; 30_encoding.md R62). -/
  pendN : s.pend.n.toNat ≤ 135 ∧ (s.pend.op ≠ opFinal → s.pend.n = 0#8)
  /-- "the register never becomes 0" (40_permutation.md R91). -/
  regNonzero : s.r ≠ 0#8
  /-- The first round starts from the seed (42_commands.md R130). -/
  regSeeded : s.phase = .xor → s.r = Config.lfsrSeed ∧ s.rnd = 0#5
  /-- In round `RND` the register stands where `7 * RND` advances from the seed leave it (R92, R94). -/
  regRound : inRound s.phase = true → s.r = lfsrAfter Config.lfsrSeed (7 * s.rnd.toNat)

/-- `k` steps of the machine. -/
def State.run (k : Nat) (s : State) : Result := Sys2Proof.core.run k s

/-- A safe run: `k` steps, none of which stops. -/
def State.runsSafely (k : Nat) (s : State) : Prop :=
  match s.run k with
  | .next _ => True
  | .fault _ => False
  | .refused _ => False

/-- The next step when the host's next access is `a`. -/
def State.byHost (s : State) (a : Access) : Result := step { s with turns := .host a :: s.turns }

/-- The next step when the sequencer moves. -/
def State.byEngine (s : State) : Result := step { s with turns := .engine :: s.turns }

/-- The next step when reset is asserted. -/
def State.byReset (s : State) : Result := step { s with turns := .reset :: s.turns }

/-- `k` steps of the sequencer alone. -/
def State.byEngines (s : State) (k : Nat) : Result :=
  State.run k { s with turns := List.replicate k .engine }

/-- 1 when the command in flight is FINAL, whose last round is followed by SQZ (42_commands.md R142). -/
def State.squeezesAfter (s : State) : Nat := if s.pend.op = opFinal then 1 else 0

/-- The phase steps left before `IDLE` (42_commands.md R146). -/
def State.stepsLeft (s : State) : Nat :=
  match s.phase with
  | .idle => 0
  | .clr => 1
  | .sqz => 1
  | .xor => 97 + s.squeezesAfter
  | .theta => 4 * (24 - s.rnd.toNat) + s.squeezesAfter
  | .rhopi => 4 * (24 - s.rnd.toNat) - 1 + s.squeezesAfter
  | .chi => 4 * (24 - s.rnd.toNat) - 2 + s.squeezesAfter
  | .iota => 4 * (24 - s.rnd.toNat) - 3 + s.squeezesAfter

/-- The part of the state a command works on: all but the error flags and the model's own two fields
(42_commands.md R145 "only error flags can change"). -/
def State.work (s : State) : State :=
  { s with errCmd := false, errBusy := false, errAcc := false, turns := [], reads := [] }

end Sys2Proof.Machine
end

