-- ==== Sys2Proof/Certificates/Slice0/Obligations.lean ====
section
/-! DEFINITION. The statements for the provers. Each docstring names the rule of spec/ it formalises. A statement
about a next state gives it as the old state with the named fields replaced, which is its frame: every other
field, and every byte of memory where `mem` is not named, is unchanged. -/

open Sys2Proof Sys2Proof.Machine

/-! ## Encoding (30_encoding.md) -/

/-- Decoding an encoded well-formed instruction gives it back, with every operand it admits (R60 to R66). -/
def Obligations.DecodeOfEncodeIsTheInstruction : Prop :=
  ∀ i : Instr, i.wf = true → decode (encode i) = .ok i

/-- What decodes to an instruction is that instruction's one encoding, and the instruction is well formed (R61
"Each legal command has exactly one encoding except FINAL, which has one per value of `N`"; R66). -/
def Obligations.EveryCodeHasOneMeaning : Prop :=
  ∀ (c : Code) (i : Instr), decode c = .ok i → i.wf = true ∧ encode i = c

/-- The opcode map and the decoder of R61, in arithmetic on the word as a number. -/
def Obligations.OpcodeMapAndLegalWords : Prop :=
  ∀ w : Word,
    ((∃ i, decodeCommand w = .ok i) ↔
      1 ≤ w.toNat % 16 ∧ w.toNat % 16 ≤ 5 ∧ w.toNat / 65536 = 0 ∧ w.toNat / 16 % 16 = 0 ∧
        (w.toNat % 16 = 3 ∧ w.toNat / 256 % 256 ≤ 135 ∨ w.toNat % 16 ≠ 3 ∧ w.toNat / 256 % 256 = 0)) ∧
    (decodeCommand w = .ok .init ↔ w = 0x00000001#32) ∧
    (decodeCommand w = .ok .absorb ↔ w = 0x00000002#32) ∧
    (∀ n : BitVec 8, decodeCommand w = .ok (.final n) ↔ n.toNat ≤ 135 ∧ w.toNat = 256 * n.toNat + 3) ∧
    (decodeCommand w = .ok .permute ↔ w = 0x00000004#32) ∧
    (decodeCommand w = .ok .squeeze ↔ w = 0x00000005#32)

/-- A few words of the spec's own tables decode to what they stand for (R61, R66; 95_test_vectors.md ENC-1). -/
def Obligations.WordsOfTheSpecDecode : Prop :=
  decodeCommand 0x00000001#32 = .ok .init ∧
  decodeCommand 0x00000002#32 = .ok .absorb ∧
  decodeCommand 0x00008703#32 = .ok (.final 135#8) ∧
  decodeCommand 0x00000004#32 = .ok .permute ∧
  decodeCommand 0x00000005#32 = .ok .squeeze ∧
  decodeCommand 0x00008803#32 = .error .finalLength ∧
  decode (.phase 0b010#3) = .ok .phaseXor ∧
  decode (.phase 0b110#3) = .ok .phaseIota

/-- A step runs the instruction decoded: the word of a 32-bit host write to `CMD`, given to the decoder as its
four bytes (R42, R65, R130), or the phase `PHASE` names (R66). The turns of the state say which agent moves, and
with none listed the sequencer does (the model's choice, log entry 1). -/
def Obligations.StepRunsTheDecodedInstruction : Prop :=
  ∀ s : State,
    (∀ ts v i, s.turns = .host (.write 0x200#10 4 v) :: ts → decodeBytes (bytesOf 4 v) = .ok i →
      step s = exec i { s with turns := ts }) ∧
    (∀ ts i, s.turns = .engine :: ts → decode (.phase s.phase.code) = .ok i →
      step s = exec i { s with turns := ts }) ∧
    (∀ i, s.turns = [] → decode (.phase s.phase.code) = .ok i → step s = exec i s)

/-- The pseudo-instruction `cmd` of each command is one 32-bit write of its word to `CMD` (R68). -/
def Obligations.CommandLinesOfTheScript : Prop :=
  cmdLines .init = [.wr .w32 0x200#10 0x00000001#64] ∧
  cmdLines .absorb = [.wr .w32 0x200#10 0x00000002#64] ∧
  cmdLines .permute = [.wr .w32 0x200#10 0x00000004#64] ∧
  cmdLines .squeeze = [.wr .w32 0x200#10 0x00000005#64] ∧
  ∀ n : BitVec 8, ∃ v, cmdLines (.final n) = [.wr .w32 0x200#10 v] ∧ v.toNat = 256 * n.toNat + 3

/-! ## The register window (20_memory.md, 60_exceptions.md) -/

/-- The legal accesses (R43), and that a legal access to `BLK` or `DOUT` stays inside its region. -/
def Obligations.LegalAccesses : Prop :=
  ∀ (off : Offset) (n : Nat) (d : Dir),
    (legal off n d = true ↔
      ((off.toNat ≤ 0x087 ∨ 0x100 ≤ off.toNat ∧ off.toNat ≤ 0x11F) ∧ (n = 1 ∨ n = 2 ∨ n = 4 ∨ n = 8) ∧
        off.toNat % n = 0 ∧ (d = .read ∨ off.toNat ≤ 0x087)) ∨
      (off.toNat = 0x200 ∧ n = 4 ∧ d = .write) ∨ (off.toNat = 0x200 ∧ n = 4 ∧ d = .read) ∨
      ((off.toNat = 0x204 ∨ off.toNat = 0x208) ∧ n = 4 ∧ d = .read)) ∧
    (legal off n d = true → off.toNat ≤ 0x087 → off.toNat + n ≤ 0x088) ∧
    (legal off n d = true → 0x100 ≤ off.toNat → off.toNat ≤ 0x11F → off.toNat + n ≤ 0x120)

/-- An illegal access sets `ERR_ACC` and nothing else, busy or not; a read returns 0 (R46, R161). -/
def Obligations.IllegalAccessSetsOnlyErrAcc : Prop :=
  ∀ (s : State) (off : Offset) (n : Nat) (v : BitVec 64),
    (legal off n .read = false →
      s.byHost (.read off n) = .next { s with errAcc := true, reads := 0#64 :: s.reads }) ∧
    (legal off n .write = false → s.byHost (.write off n v) = .next { s with errAcc := true })

/-- A legal read of `BLK` or `DOUT` returns its bytes in little-endian order and changes nothing, whatever
`BUSY` is (R42, R44). -/
def Obligations.StoredBytesReadLittleEndian : Prop :=
  ∀ (s : State) (off : Offset) (n : Nat),
    n = 1 ∨ n = 2 ∨ n = 4 ∨ n = 8 → off.toNat % n = 0 →
    off.toNat ≤ 0x087 ∨ 0x100 ≤ off.toNat ∧ off.toNat ≤ 0x11F →
    ∃ v : BitVec 64, s.byHost (.read off n) = .next { s with reads := v :: s.reads } ∧
      (∀ k, k < n → byteOf v k = s.mem.read (off.toNat + k)) ∧ (∀ k, n ≤ k → byteOf v k = 0x00#8)

/-- `STATUS` reads as `BUSY`, `ERR_CMD`, `ERR_BUSY`, `ERR_ACC` in bits 0 to 3 and zeros above, `CONFIG` as
0x40182088 and `CMD` as 0; the reads change nothing (R24, R25, R26, R44). So a `STATUS` read whose bit 0 is 0 is
made in `IDLE` (R50). -/
def Obligations.ReadsOfStatusConfigAndCmd : Prop :=
  ∀ s : State,
    (∃ v : BitVec 64, s.byHost (.read 0x204#10 4) = .next { s with reads := v :: s.reads } ∧
      ∀ i, v.getLsbD i = true ↔
        i = 0 ∧ s.phase ≠ .idle ∨ i = 1 ∧ s.errCmd = true ∨ i = 2 ∧ s.errBusy = true ∨ i = 3 ∧ s.errAcc = true) ∧
    s.byHost (.read 0x208#10 4) = .next { s with reads := 0x40182088#64 :: s.reads } ∧
    s.byHost (.read 0x200#10 4) = .next { s with reads := 0#64 :: s.reads }

/-- A legal write to `BLK` while idle stores its bytes in little-endian order and changes nothing else: outside
the `n` bytes from `off` every byte reads as before (R42, R45). -/
def Obligations.BlkWriteStoresItsBytes : Prop :=
  ∀ (s : State) (off : Offset) (n : Nat) (v : BitVec 64),
    s.phase = .idle → n = 1 ∨ n = 2 ∨ n = 4 ∨ n = 8 → off.toNat % n = 0 → off.toNat ≤ 0x087 →
    ∃ t, s.byHost (.write off n v) = .next t ∧ t = { s with mem := t.mem } ∧
      (∀ k, k < n → t.mem.read (off.toNat + k) = byteOf v k) ∧
      (∀ a, a < off.toNat ∨ off.toNat + n ≤ a → t.mem.read a = s.mem.read a)

/-- After a 64-bit write of `v` to `BLK` at `8i`, lane `i` of the packed block is `v`, and no other lane of it has
changed (R42, R112). -/
def Obligations.WrittenWordIsThePackedLane : Prop :=
  ∀ (s : State) (i : Fin 17) (v : BitVec 64), s.phase = .idle →
    ∃ t, s.byHost (.write (BitVec.ofNat 10 (8 * i.val)) 8 v) = .next t ∧ (lanes17 t.block)[i] = v ∧
      ∀ j : Fin 17, j ≠ i → (lanes17 t.block)[j] = (lanes17 s.block)[j]

/-- A legal write while busy, to `BLK` or to `CMD`, whatever its word, is discarded and sets `ERR_BUSY` alone
(R45, R162, R164). -/
def Obligations.WriteWhileBusySetsOnlyErrBusy : Prop :=
  ∀ (s : State) (off : Offset) (n : Nat) (v : BitVec 64),
    s.phase ≠ .idle → legal off n .write = true → s.byHost (.write off n v) = .next { s with errBusy := true }

/-- An illegal command word written while idle starts no command and sets `ERR_CMD` alone (R64, R163). -/
def Obligations.IllegalCommandWordSetsOnlyErrCmd : Prop :=
  ∀ (s : State) (v : BitVec 64),
    s.phase = .idle → (∀ i, decodeCommand (v.setWidth 32) ≠ .ok i) →
    s.byHost (.write 0x200#10 4 v) = .next { s with errCmd := true }

/-- A set error flag stays set in every step but a reset and the issue of INIT (R25, R160). -/
def Obligations.ErrorFlagsAreSticky : Prop :=
  ∀ (s t : State) (e : ErrFlag), step s = .next t → s.err e = true →
    t.err e = true ∨ (∃ ts, s.turns = .reset :: ts) ∨
      (s.phase = .idle ∧ ∃ ts v, s.turns = .host (.write 0x200#10 4 v) :: ts ∧ v.setWidth 32 = 0x00000001#32)

/-- One host access raises at most one flag, and a phase step raises none (R164). -/
def Obligations.AtMostOneFlagIsRaised : Prop :=
  (∀ (s t : State) (a : Access) (e e' : ErrFlag), s.byHost a = .next t →
    s.err e = false → t.err e = true → s.err e' = false → t.err e' = true → e = e') ∧
  (∀ (s t : State) (e : ErrFlag), s.byEngine = .next t → t.err e = s.err e)

/-- What a host read returns does not depend on the lanes, `R`, `RND`, `PEND`, or on which phase it is while busy
(R20, R173). -/
def Obligations.ReadsDoNotShowHiddenState : Prop :=
  ∀ (s u s' u' : State) (off : Offset) (n : Nat),
    s.mem = u.mem → s.errCmd = u.errCmd → s.errBusy = u.errBusy → s.errAcc = u.errAcc →
    (s.phase = .idle ↔ u.phase = .idle) → s.reads = u.reads →
    s.byHost (.read off n) = .next s' → u.byHost (.read off n) = .next u' → s'.reads = u'.reads

/-- While busy, no host access stops the machine or changes anything a command works on (R145). -/
def Obligations.HostCannotDisturbABusyEngine : Prop :=
  ∀ (s : State) (a : Access), s.phase ≠ .idle → ∃ t, s.byHost a = .next t ∧ t.work = s.work

/-! ## Reset (70_reset_and_hazards.md) -/

/-- Reset, whatever the engine was doing, and the state after reset: the table of R180; the engine is then idle,
and that its turn keeps the state is the model's choice (log entry 1). -/
def Obligations.ResetPutsEveryRegister : Prop :=
  ∀ (s t : State), t = State.reset ∨ s.byReset = .next t →
    (∀ i : Fin 25, t.lanes[i] = 0x0000000000000000#64) ∧ (∀ k : Fin 136, t.block[k] = 0x00#8) ∧
    (∀ j : Fin 32, t.dout[j] = 0x00#8) ∧ t.status = 0x00000000#32 ∧
    t.errCmd = false ∧ t.errBusy = false ∧ t.errAcc = false ∧ t.r = 0x01#8 ∧ t.rnd = 0#5 ∧ t.phase = .idle ∧
    t.pend.op = 0#4 ∧ t.pend.n = 0#8 ∧
    readValue t 0x208#10 4 = 0x40182088#64 ∧ readValue t 0x200#10 4 = 0#64 ∧ t.byEngine = .next t

/-- Reset never stops: it gives a next state from every state (R180, R181). That the turns and the values read
stay is the model's choice (log entries 1 and 2). -/
def Obligations.ResetAlwaysCompletes : Prop :=
  ∀ s : State, s.byReset = .next { State.reset with turns := s.turns, reads := s.reads }

/-! ## The commands (42_commands.md R130 to R135) -/

/-- INIT, idle: issued; it clears the three flags and enters CLR (R130, R131). -/
def Obligations.InitIsIssued : Prop :=
  ∀ s : State, s.phase = .idle →
    exec .init s = .next { s with
      pend := { op := 0x1#4, n := 0#8 }, errCmd := false, errBusy := false, errAcc := false, phase := .clr }

/-- ABSORB, FINAL N with N in 0..135 and PERMUTE, idle: issued; they seed `R` and `RND` and enter XOR, XOR and
THETA (R130, R132, R133, R134). -/
def Obligations.PermutingCommandsAreIssued : Prop :=
  ∀ s : State, s.phase = .idle →
    exec .absorb s = .next { s with pend := { op := 0x2#4, n := 0#8 }, r := 0x01#8, rnd := 0#5, phase := .xor } ∧
    (∀ n : BitVec 8, n.toNat ≤ 135 →
      exec (.final n) s = .next { s with pend := { op := 0x3#4, n := n }, r := 0x01#8, rnd := 0#5, phase := .xor }) ∧
    exec .permute s = .next { s with pend := { op := 0x4#4, n := 0#8 }, r := 0x01#8, rnd := 0#5, phase := .theta }

/-- SQUEEZE, idle: issued; it enters SQZ (R130, R135). -/
def Obligations.SqueezeIsIssued : Prop :=
  ∀ s : State, s.phase = .idle →
    exec .squeeze s = .next { s with pend := { op := 0x5#4, n := 0#8 }, phase := .sqz }

/-- A command written while busy only sets `ERR_BUSY`; FINAL with N over 135, while idle, only `ERR_CMD` (R45,
R64, R164). -/
def Obligations.CommandsAreTurnedAway : Prop :=
  ∀ s : State,
    (s.phase ≠ .idle → ∀ i : Instr,
      i = .init ∨ i = .absorb ∨ (∃ n, i = .final n) ∨ i = .permute ∨ i = .squeeze →
      exec i s = .next { s with errBusy := true }) ∧
    (s.phase = .idle → ∀ n : BitVec 8, 135 < n.toNat → exec (.final n) s = .next { s with errCmd := true })

/-! ## The phases (42_commands.md R137 to R144) -/

/-- CLR: every lane and every byte of `DOUT` becomes 0, `PHASE` IDLE, and nothing else changes (R137). -/
def Obligations.ClrPhaseZeroes : Prop :=
  ∀ s : State, s.phase = .clr →
    ∃ t, exec .phaseClr s = .next t ∧ t = { s with lanes := t.lanes, mem := t.mem, phase := .idle } ∧
      (∀ i : Fin 25, t.lanes[i] = 0#64) ∧ (∀ j : Fin 32, t.dout[j] = 0x00#8) ∧
      (∀ a, a < 0x100 ∨ 0x120 ≤ a → t.mem.read a = s.mem.read a)

/-- XOR of ABSORB: byte `k` of lane `i`, for the 17 rate lanes, takes the XOR with `BLK[8i+k]`; the capacity lanes
17..24 do not change (R138, R112, R113). -/
def Obligations.XorPhaseAbsorbsTheBlock : Prop :=
  ∀ s : State, s.phase = .xor → s.pend.op = 0x2#4 →
    ∃ t, exec .phaseXor s = .next t ∧ t = { s with lanes := t.lanes, phase := .theta } ∧
      (∀ (i : Fin 25) (k : Nat), i.val < 17 → k < 8 →
        byteOf t.lanes[i] k = byteOf s.lanes[i] k ^^^ s.mem.read (8 * i.val + k)) ∧
      (∀ i : Fin 25, 17 ≤ i.val → t.lanes[i] = s.lanes[i])

/-- XOR of FINAL N: the same with the padded block, whose byte `p` is `BLK[p]` below `N`, 0x01 at `N` (0x81 if `N`
is 135), 0x80 at 135 and 0x00 elsewhere (R138, R119). -/
def Obligations.XorPhasePadsTheFinalBlock : Prop :=
  ∀ s : State, s.phase = .xor → s.pend.op = 0x3#4 → s.pend.n.toNat ≤ 135 →
    ∃ t, exec .phaseXor s = .next t ∧ t = { s with lanes := t.lanes, phase := .theta } ∧
      (∀ (i : Fin 25) (k : Nat), i.val < 17 → k < 8 →
        byteOf t.lanes[i] k = byteOf s.lanes[i] k ^^^
          (if 8 * i.val + k < s.pend.n.toNat then s.mem.read (8 * i.val + k)
           else if 8 * i.val + k = s.pend.n.toNat then (if s.pend.n.toNat = 135 then 0x81#8 else 0x01#8)
           else if 8 * i.val + k = 135 then 0x80#8 else 0x00#8)) ∧
      (∀ i : Fin 25, 17 ≤ i.val → t.lanes[i] = s.lanes[i])

/-- THETA, bit by bit: bit `b` of lane `(x, y)` is flipped by the parity of column `x-1` at `b` and that of column
`x+1` at `b-1`, both of the lanes before the step (R84, R139). -/
def Obligations.ThetaPhase : Prop :=
  ∀ s : State, s.phase = .theta →
    ∃ t, exec .phaseTheta s = .next t ∧ t = { s with lanes := t.lanes, phase := .rhopi } ∧
      ∀ (x y : Fin 5) (b : Nat), b < 64 →
        (laneAt t.lanes x y).getLsbD b =
          ((laneAt s.lanes x y).getLsbD b ^^
            ((laneAt s.lanes (x + 4) 0).getLsbD b ^^ (laneAt s.lanes (x + 4) 1).getLsbD b ^^
             (laneAt s.lanes (x + 4) 2).getLsbD b ^^ (laneAt s.lanes (x + 4) 3).getLsbD b ^^
             (laneAt s.lanes (x + 4) 4).getLsbD b) ^^
            ((laneAt s.lanes (x + 1) 0).getLsbD ((b + 63) % 64) ^^ (laneAt s.lanes (x + 1) 1).getLsbD ((b + 63) % 64) ^^
             (laneAt s.lanes (x + 1) 2).getLsbD ((b + 63) % 64) ^^ (laneAt s.lanes (x + 1) 3).getLsbD ((b + 63) % 64) ^^
             (laneAt s.lanes (x + 1) 4).getLsbD ((b + 63) % 64)))

/-- RHOPI: lane 0 stays, and each other lane takes the lane the table of R86 names, rotated by the table's
offset (R140, R85; R86, the table the spec derives from R85). -/
def Obligations.RhoPiPhaseMovesByTheTable : Prop :=
  ∀ s : State, s.phase = .rhopi →
    ∃ t, exec .phaseRhopi s = .next t ∧ t = { s with lanes := t.lanes, phase := .chi } ∧
      t.lanes[(0 : Fin 25)] = s.lanes[(0 : Fin 25)] ∧
      ∀ row ∈ rhoPiTable, ∀ b, b < 64 →
        t.lanes[row.dst].getLsbD b = s.lanes[row.src].getLsbD ((b + 64 - row.r) % 64)

/-- The table of R86 is the map of R87 and R88: the lane at `(x, y)` other than `(0, 0)` goes to
`(y, (2x + 3y) mod 5)`, every destination but 0 has one row, and every offset lies in 1..63 (R83, R87, R88). -/
def Obligations.RhoPiTableIsThePositionMap : Prop :=
  ∀ x y : Fin 5, idx x y ≠ 0 →
    ∃ row ∈ rhoPiTable, row.src = idx x y ∧ row.dst = idx y (2 * x + 3 * y) ∧ 1 ≤ row.r ∧ row.r ≤ 63 ∧
      ∀ row' ∈ rhoPiTable, row'.dst = row.dst ∨ row'.src = row.src → row' = row

/-- CHI, bit by bit: each row from its own snapshot (R89, R141). -/
def Obligations.ChiPhase : Prop :=
  ∀ s : State, s.phase = .chi →
    ∃ t, exec .phaseChi s = .next t ∧ t = { s with lanes := t.lanes, phase := .iota } ∧
      ∀ (x y : Fin 5) (b : Nat), b < 64 →
        (laneAt t.lanes x y).getLsbD b =
          ((laneAt s.lanes x y).getLsbD b ^^
            (!(laneAt s.lanes (x + 1) y).getLsbD b && (laneAt s.lanes (x + 2) y).getLsbD b))

/-- IOTA: bit `2^j - 1` of lane 0 is flipped exactly when bit 0 of the register after `j` advances is 1 (R92), no
other bit of any lane changes, the register advances seven times, and the round loop closes (R142). -/
def Obligations.IotaPhase : Prop :=
  ∀ s : State, s.phase = .iota → s.rnd.toNat ≤ 23 →
    ∃ t, exec .phaseIota s = .next t ∧
      t = { s with lanes := t.lanes, r := t.r, rnd := t.rnd, phase := t.phase } ∧
      (∀ b, b < 64 → t.lanes[(0 : Fin 25)].getLsbD b =
        (s.lanes[(0 : Fin 25)].getLsbD b ^^
          (List.range 7).any fun j => decide (b = 2 ^ j - 1) && (lfsrStep^[j] s.r).getLsbD 0)) ∧
      (∀ i : Fin 25, i ≠ 0 → t.lanes[i] = s.lanes[i]) ∧
      t.r = lfsrStep^[7] s.r ∧
      (s.rnd.toNat < 23 → t.rnd.toNat = s.rnd.toNat + 1 ∧ t.phase = .theta) ∧
      (s.rnd.toNat = 23 → t.rnd = s.rnd ∧ t.phase = if s.pend.op = 0x3#4 then .sqz else .idle)

/-- In every state that meets the invariant, IOTA of round `RND` XORs the round constant `RC[RND]` of R93 into
lane 0. -/
def Obligations.IotaInjectsTheRoundConstant : Prop :=
  ∀ s : State, s.Inv → s.phase = .iota →
    ∃ t, exec .phaseIota s = .next t ∧
      t.lanes[(0 : Fin 25)] = s.lanes[(0 : Fin 25)] ^^^ roundConstants.getD s.rnd.toNat 0#64

/-- SQZ: byte `8i+k` of `DOUT` becomes byte `k` of lane `i`, for lanes 0..3; `PHASE` IDLE, and nothing else changes
(R143, R115, R116). -/
def Obligations.SqzPhaseCopiesTheDigest : Prop :=
  ∀ s : State, s.phase = .sqz →
    ∃ t, exec .phaseSqz s = .next t ∧ t = { s with mem := t.mem, phase := .idle } ∧
      (∀ (i : Fin 25) (k : Nat), i.val < 4 → k < 8 → t.mem.read (0x100 + 8 * i.val + k) = byteOf s.lanes[i] k) ∧
      (∀ a, a < 0x100 ∨ 0x120 ≤ a → t.mem.read a = s.mem.read a)

/-- IDLE: the engine has no step, and all state is kept (R144, R174); that a turn of the sequencer in IDLE leaves
the state as it is is how the model says so (log entry 1). -/
def Obligations.IdlePhaseKeepsTheState : Prop :=
  ∀ s : State, s.phase = .idle →
    exec .phaseIdle s = .next s ∧ s.byEngine = .next s ∧ (s.turns = [] → step s = .next s)

/-- Where a phase row stops: where it is not enabled (42_commands.md section 3), and in the cases
93_implementation_defined.md V6 and V7 and 41_sponge.md R119 leave without an effect (log entries 4 and 5). -/
def Obligations.PhaseRowsStopWhereTheyHaveNoEffect : Prop :=
  ∀ s : State,
    (∀ p : Phase, s.phase ≠ p → exec p.toInstr s = .fault (.phaseNotEnabled p)) ∧
    (s.phase = .xor → s.pend.op ≠ 0x2#4 → s.pend.op ≠ 0x3#4 → exec .phaseXor s = .fault .xorWithoutBlockCommand) ∧
    (s.phase = .xor → s.pend.op = 0x3#4 → 135 < s.pend.n.toNat → exec .phaseXor s = .fault .padLengthOutOfRange) ∧
    (s.phase = .iota → 23 < s.rnd.toNat → exec .phaseIota s = .fault .rndOutOfRange)

/-! ## The net effect of the commands (42_commands.md R131 to R136, R145, R146) -/

/-- INIT, issue and one phase step: zero lanes, zero digest, no flag set, idle; `BLK`, `R` and `RND` unchanged
(R131). -/
def Obligations.InitNetEffect : Prop :=
  ∀ (s : State) (ts : List Turn), s.phase = .idle → s.turns = commandTurns .init 1 ++ ts →
    ∃ t, s.run 2 = .next t ∧
      t = { s with
        lanes := t.lanes, mem := t.mem, errCmd := false, errBusy := false, errAcc := false,
        pend := { op := 0x1#4, n := 0#8 }, turns := ts } ∧
      (∀ i : Fin 25, t.lanes[i] = 0#64) ∧ (∀ j : Fin 32, t.dout[j] = 0x00#8) ∧
      (∀ a, a < 0x100 ∨ 0x120 ≤ a → t.mem.read a = s.mem.read a)

/-- ABSORB, issue and 97 phase steps: `ABSORB_BLOCK(BLK)` on the lanes, the register at 0x8E, `RND` at 23, idle, and
nothing else (R132). -/
def Obligations.AbsorbNetEffect : Prop :=
  ∀ (s : State) (ts : List Turn), s.phase = .idle → s.turns = commandTurns .absorb 97 ++ ts →
    s.run 98 = .next { s with
      lanes := absorbBlock s.lanes s.block, r := 0x8E#8, rnd := 23#5, pend := { op := 0x2#4, n := 0#8 }, turns := ts }

/-- FINAL N, issue and 98 phase steps: the padded block absorbed, then the digest of the lanes in `DOUT`; `BLK`
unchanged (R133). -/
def Obligations.FinalNetEffect : Prop :=
  ∀ (s : State) (n : BitVec 8) (ts : List Turn), s.phase = .idle → n.toNat ≤ 135 →
    s.turns = commandTurns (.final n) 98 ++ ts →
    ∃ t, s.run 99 = .next t ∧
      t = { s with
        lanes := absorbBlock s.lanes (padBlock s.block n.toNat), mem := t.mem, r := 0x8E#8, rnd := 23#5,
        pend := { op := 0x3#4, n := n }, turns := ts } ∧
      t.dout = squeezeOut t.lanes ∧ (∀ a, a < 0x100 ∨ 0x120 ≤ a → t.mem.read a = s.mem.read a)

/-- PERMUTE, issue and 96 phase steps: `KECCAK_F` on the lanes, and nothing else (R134). -/
def Obligations.PermuteNetEffect : Prop :=
  ∀ (s : State) (ts : List Turn), s.phase = .idle → s.turns = commandTurns .permute 96 ++ ts →
    s.run 97 = .next { s with
      lanes := keccakF s.lanes, r := 0x8E#8, rnd := 23#5, pend := { op := 0x4#4, n := 0#8 }, turns := ts }

/-- SQUEEZE, issue and one phase step: the digest of the lanes in `DOUT`; the lanes unchanged (R135). -/
def Obligations.SqueezeNetEffect : Prop :=
  ∀ (s : State) (ts : List Turn), s.phase = .idle → s.turns = commandTurns .squeeze 1 ++ ts →
    ∃ t, s.run 2 = .next t ∧
      t = { s with mem := t.mem, pend := { op := 0x5#4, n := 0#8 }, turns := ts } ∧
      t.dout = squeezeOut s.lanes ∧ (∀ a, a < 0x100 ∨ 0x120 ≤ a → t.mem.read a = s.mem.read a)

/-- A host that pads its last block itself, absorbs it with ABSORB and then issues SQUEEZE gets FINAL's digest and
lanes (R188). -/
def Obligations.SoftwarePaddingEqualsFinal : Prop :=
  ∀ (s u : State) (n : BitVec 8), s.phase = .idle → u.phase = .idle → n.toNat ≤ 135 →
    s.lanes = u.lanes → u.block = padBlock s.block n.toNat →
    s.turns = commandTurns (.final n) 98 →
    u.turns = commandTurns .absorb 97 ++ commandTurns .squeeze 1 →
    ∃ t v, s.run 99 = .next t ∧ u.run 100 = .next v ∧ t.dout = v.dout ∧ t.lanes = v.lanes

/-- Hashing a message of any length with the commands: INIT, each whole block written to `BLK` and absorbed, the
rest written and FINAL (L mod 136), the digest read, each wait outlasting its command, leaves `DOUT = HASH(M)`,
no error flag, an idle engine, and the digest's four lanes as the values read (R136, R117). -/
def Obligations.HashByCommandsIsHash : Prop :=
  ∀ (s : State) (M : List Byte), s.phase = .idle → s.turns = hashTurns M →
    ∃ t, s.run (hashTurns M).length = .next t ∧ t.dout = keccak256 M ∧ t.phase = .idle ∧ t.turns = [] ∧
      t.status = 0x00000000#32 ∧
      ∃ d0 d1 d2 d3 : BitVec 64, t.reads = d3 :: d2 :: d1 :: d0 :: s.reads ∧
        (∀ k : Fin 8, byteOf d0 k.val = (keccak256 M)[k.val] ∧ byteOf d1 k.val = (keccak256 M)[8 + k.val] ∧
          byteOf d2 k.val = (keccak256 M)[16 + k.val] ∧ byteOf d3 k.val = (keccak256 M)[24 + k.val])

/-- The hash program of R136, with its polls, beside an idle engine, under every schedule of the two agents (R49): no
run stops; when the host has reached the end of its script, `DOUT` is `HASH(M)`, the engine is idle with no error flag
set, and the names `d0` to `d3` hold the digest; and some schedule takes the host there. That a host at the end of its
script does nothing more and that the label of each `wait` is an argument are the model's choices (log entry 7), and
so is that the sequencer's turn in IDLE keeps the state (log entry 1). -/
def Obligations.HashProgramUnderEverySchedule : Prop :=
  ∀ (s : State) (M : List Byte), s.phase = .idle →
    (∀ sched : List Agent, ∃ y, System.run sched (System.start (hashProgram M) s) = .next y ∧
      (y.host.pc = (hashProgram M).length →
        y.engine.dout = keccak256 M ∧ y.engine.phase = .idle ∧ y.engine.status = 0x00000000#32 ∧
          ∀ k : Fin 8,
            byteOf (y.host.value "d0") k.val = (keccak256 M)[k.val] ∧
            byteOf (y.host.value "d1") k.val = (keccak256 M)[8 + k.val] ∧
            byteOf (y.host.value "d2") k.val = (keccak256 M)[16 + k.val] ∧
            byteOf (y.host.value "d3") k.val = (keccak256 M)[24 + k.val])) ∧
    ∃ (sched : List Agent) (y : System),
      System.run sched (System.start (hashProgram M) s) = .next y ∧ y.host.pc = (hashProgram M).length

/-- Command atomicity: host accesses interleaved anywhere while a command is in flight do not change what the
phase steps do (R145). Every turn of `L` but the last, which is a phase step, is taken while busy. -/
def Obligations.CommandAtomicity : Prop :=
  ∀ (s : State) (L : List Turn), s.Inv → s.turns = L ++ [.engine] → .reset ∉ L →
    L.count .engine < s.stepsLeft →
    ∃ t u, s.run (L.length + 1) = .next t ∧ s.byEngines (L.count .engine + 1) = .next u ∧ t.work = u.work

/-- Progress: while busy the sequencer has exactly one step, which brings the command one step nearer to IDLE; the
commands take 1, 97, 98, 96 and 1 phase steps (R146). -/
def Obligations.CommandsTakeTheirSteps : Prop :=
  (∀ s : State, s.Inv → (s.stepsLeft = 0 ↔ s.phase = .idle) ∧
    (s.phase ≠ .idle → ∃ t, s.byEngine = .next t ∧ t.stepsLeft + 1 = s.stepsLeft)) ∧
  (∀ s t : State, s.phase = .idle →
    (exec .init s = .next t → t.stepsLeft = 1) ∧ (exec .absorb s = .next t → t.stepsLeft = 97) ∧
    (∀ n : BitVec 8, n.toNat ≤ 135 → exec (.final n) s = .next t → t.stepsLeft = 98) ∧
    (exec .permute s = .next t → t.stepsLeft = 96) ∧ (exec .squeeze s = .next t → t.stepsLeft = 1))

/-! ## Invariants and whole-machine rules -/

/-- The state after reset meets the invariant (R180). -/
def Obligations.ResetMeetsTheInvariant : Prop := State.reset.Inv

/-- Every step keeps the invariant: the stored bytes canonical and only in `BLK` and `DOUT`, `RND` in 0..23, `PEND`
one that enters the phase, the register nonzero and in step with `RND` (R29, R31, R91, R138). -/
def Obligations.EveryStepKeepsTheInvariant : Prop :=
  ∀ s t : State, s.Inv → step s = .next t → t.Inv

/-- From a state that meets the invariant no step stops: the machine has no error case but its flags (R165, R166;
93_implementation_defined.md V6, V7 "unreachable"). -/
def Obligations.NoStepStops : Prop := ∀ s : State, s.Inv → ∃ t, step s = .next t

/-- `DOUT` changes only in a phase step of SQZ or CLR, or by reset (R23, R54). -/
def Obligations.DoutChangesOnlyInSqzAndClr : Prop :=
  ∀ s t : State, step s = .next t → t.dout ≠ s.dout →
    ((s.phase = .sqz ∨ s.phase = .clr) ∧ (s.turns = [] ∨ ∃ ts, s.turns = .engine :: ts)) ∨
      ∃ ts, s.turns = .reset :: ts

/-- `BLK` changes only by a legal host write to it while idle, or by reset: no command and no phase writes it
(R22, R51). -/
def Obligations.BlkChangesOnlyByHostWrites : Prop :=
  ∀ s t : State, step s = .next t → t.block ≠ s.block →
    (s.phase = .idle ∧ ∃ ts off n v, s.turns = .host (.write off n v) :: ts ∧ legal off n .write = true ∧
      off.toNat ≤ 0x087) ∨
      ∃ ts, s.turns = .reset :: ts

/-- The lanes change only in a phase step of CLR, XOR, THETA, RHOPI, CHI or IOTA, or by reset, and the capacity
lanes not even in XOR (R20, R21). -/
def Obligations.LanesChangeOnlyInTheirPhases : Prop :=
  ∀ s t : State, step s = .next t → ∀ i : Fin 25, t.lanes[i] ≠ s.lanes[i] →
    ((s.phase = .clr ∨ s.phase = .xor ∧ i.val < 17 ∨ s.phase = .theta ∨ s.phase = .rhopi ∨ s.phase = .chi ∨
        s.phase = .iota ∧ i = 0) ∧ (s.turns = [] ∨ ∃ ts, s.turns = .engine :: ts)) ∨
      ∃ ts, s.turns = .reset :: ts

/-! ## The arithmetic (40_permutation.md, 41_sponge.md) -/

/-- Bit `i` of `rotl64(a, r)` is bit `(i - r) mod 64` of `a`, for `r` in 1..63; the two halves never overlap, so
their OR is the same (R82). R82 defines no rotation by 0: that the bit rule holds there too and that the rotation is
then the identity is the model's, the option R83 and D27 allow (DEDUCED, log entry 6). -/
def Obligations.RotationMovesEveryBit : Prop :=
  ∀ (a : Lane) (r : Nat), r ≤ 63 →
    (∀ i, i < 64 → (rotl64 a r).getLsbD i = a.getLsbD ((i + 64 - r) % 64)) ∧
    (1 ≤ r → rotl64 a r = (a <<< r) ||| (a >>> (64 - r))) ∧ rotl64 a 0 = a

/-- Theta is linear, and leaves every state whose column parities are all zero or all ones
unchanged (R84). -/
def Obligations.ThetaIsLinear : Prop :=
  (∀ A B : Lanes, theta (Vector.ofFn fun i => A[i] ^^^ B[i]) = Vector.ofFn fun i => (theta A)[i] ^^^ (theta B)[i]) ∧
  (∀ A : Lanes, (∀ x, thetaC A x = 0#64) ∨ (∀ x, thetaC A x = 0xFFFFFFFFFFFFFFFF#64) → theta A = A)

/-- The register from the seed: its first sixteen values, its first return to 0x01 after 255 advances, never 0; from
any nonzero value it never becomes 0; and bit 1 of an advance is bit 0 before it (R90, R91). -/
def Obligations.LfsrSequence : Prop :=
  (List.range 16).map (fun k => lfsrAfter 0x01#8 (k + 1)) =
    [0x02#8, 0x04#8, 0x08#8, 0x10#8, 0x20#8, 0x40#8, 0x80#8, 0x71#8, 0xE2#8, 0xB5#8, 0x1B#8, 0x36#8, 0x6C#8,
     0xD8#8, 0xC1#8, 0xF3#8] ∧
  (∀ k, 0 < k → k < 255 → lfsrAfter 0x01#8 k ≠ 0x01#8) ∧ lfsrAfter 0x01#8 255 = 0x01#8 ∧
  (∀ r k, r ≠ 0#8 → lfsrAfter r k ≠ 0#8) ∧
  (∀ r, (lfsrStep r).getLsbD 1 = r.getLsbD 0)

/-- KECCAK_F leaves the register at 0x8E whatever the lanes (R95), and iota with the register and iota with the
table of R93 give the same lanes in every round. -/
def Obligations.RegisterAndTableAgree : Prop :=
  (∀ A : Lanes, (keccakFull A).2 = 0x8E#8) ∧
  (∀ (A : Lanes) (i : Nat), i < 24 →
    (iota A (lfsrAfter 0x01#8 (7 * i))).1 = A.set 0 (A[0] ^^^ roundConstants.getD i 0#64))

/-- The padded length is the smallest multiple of 136 that is greater than the message's, the padded message begins
with the message, at least one and at most 136 bytes are added, and a message of `L` bytes has `L / 136 + 1` blocks:
1 for 0..135, 2 for 136..271, 3 for 272 (R111, which the spec derives from R110). -/
def Obligations.PaddedLength : Prop :=
  ∀ M : List Byte,
    (pad M).length % 136 = 0 ∧ M.length < (pad M).length ∧ (pad M).length ≤ M.length + 136 ∧
    (pad M).take M.length = M ∧
    (∀ m, m % 136 = 0 → M.length < m → (pad M).length ≤ m) ∧ (pad M).length / 136 = M.length / 136 + 1

/-- The blocks of a padded message as the hardware forms them: every block but the last is message bytes, and the
last is PADBLOCK of any buffer that begins with the last `L mod 136` bytes (R119). -/
def Obligations.BlocksOfAPaddedMessage : Prop :=
  ∀ M : List Byte,
    (∀ k, k < M.length / 136 → ∀ i : Fin 136, (blockAt (pad M) k)[i] = M.getD (136 * k + i.val) 0x00#8) ∧
    (∀ b : Block, (∀ i : Fin 136, i.val < M.length % 136 → b[i] = M.getD (136 * (M.length / 136) + i.val) 0x00#8) →
      blockAt (pad M) (M.length / 136) = padBlock b (M.length % 136))
end

