-- ==== Sys2Proof/Laws/Bytes.lean ====
section
/-! SUPPORT. Byte order: the bytes of a little-endian value are the bytes it was made of (20_memory.md R42). -/

namespace Sys2Proof.Machine

@[simp] theorem leValue_zero (f : Nat → Byte) : leValue 0 f = 0#64 := rfl

theorem leValue_succ (n : Nat) (f : Nat → Byte) :
    leValue (n + 1) f = leValue n f + ((f n).setWidth 64 <<< (8 * n)) := by
  simp [leValue, List.range_succ]

/-- Two values made of the same bytes are equal. -/
theorem leValue_congr {n : Nat} {f g : Nat → Byte} (h : ∀ k < n, f k = g k) : leValue n f = leValue n g := by
  induction n with
  | zero => rfl
  | succ n ih => rw [leValue_succ, leValue_succ, ih fun k hk => h k (by omega), h n (by omega)]

/-- As a number, up to eight bytes do not overflow a lane. -/
theorem leValue_toNat_succ {n : Nat} (f : Nat → Byte) (hn : n < 8) (hlt : (leValue n f).toNat < 2 ^ (8 * n)) :
    (leValue (n + 1) f).toNat = (leValue n f).toNat + 2 ^ (8 * n) * (f n).toNat := by
  have hb : (f n).toNat < 2 ^ 8 := (f n).isLt
  have hp : 2 ^ (8 * (n + 1)) ≤ 2 ^ 64 := Nat.pow_le_pow_right (by decide) (by omega)
  have he : 2 ^ (8 * (n + 1)) = 2 ^ (8 * n) * 2 ^ 8 := by rw [← Nat.pow_add]; congr 1
  have hle : 2 ^ (8 * n) * (f n).toNat + 2 ^ (8 * n) ≤ 2 ^ (8 * (n + 1)) := by
    rw [he, ← Nat.mul_succ]
    exact Nat.mul_le_mul_left _ hb
  rw [leValue_succ, BitVec.toNat_add, BitVec.toNat_shiftLeft, BitVec.toNat_setWidth,
    Nat.mod_eq_of_lt (a := (f n).toNat) (by omega), Nat.shiftLeft_eq, Nat.mul_comm (f n).toNat,
    Nat.mod_eq_of_lt (a := 2 ^ (8 * n) * (f n).toNat) (by omega), Nat.mod_eq_of_lt (by omega)]

theorem leValue_toNat_lt (n : Nat) (f : Nat → Byte) (hn : n ≤ 8) : (leValue n f).toNat < 2 ^ (8 * n) := by
  induction n with
  | zero => simp
  | succ n ih =>
    have hlt := ih (by omega)
    have hb : (f n).toNat < 2 ^ 8 := (f n).isLt
    have he : 2 ^ (8 * (n + 1)) = 2 ^ (8 * n) * 2 ^ 8 := by rw [← Nat.pow_add]; congr 1
    have hle : 2 ^ (8 * n) * (f n).toNat + 2 ^ (8 * n) ≤ 2 ^ (8 * (n + 1)) := by
      rw [he, ← Nat.mul_succ]
      exact Nat.mul_le_mul_left _ hb
    rw [leValue_toNat_succ f (by omega) hlt]
    omega

/-- The bits of a byte of a value. -/
theorem byteOf_getLsbD (v : BitVec 64) (k i : Nat) :
    (byteOf v k).getLsbD i = (decide (i < 8) && v.getLsbD (8 * k + i)) := by
  simp [byteOf]

/-- Byte `k` of a little-endian value is the byte it was made of; past its width it is 0. -/
theorem byteOf_leValue (n : Nat) (f : Nat → Byte) (hn : n ≤ 8) (k : Nat) :
    byteOf (leValue n f) k = if k < n then f k else 0#8 := by
  induction n with
  | zero => apply BitVec.eq_of_getLsbD_eq; simp [byteOf_getLsbD]
  | succ n ih =>
    have hlt := leValue_toNat_lt n f (by omega)
    have hs := leValue_toNat_succ f (by omega) hlt
    have ih := ih (by omega)
    have hbit (j : Nat) : (leValue (n + 1) f).getLsbD j =
        if j < 8 * n then (leValue n f).getLsbD j else (f n).getLsbD (j - 8 * n) := by
      rw [BitVec.getLsbD, hs, Nat.add_comm, Nat.testBit_two_pow_mul_add _ hlt]
      split <;> rfl
    have hold (j : Nat) : (leValue n f).getLsbD j = (decide (j < 8 * n) && (leValue n f).getLsbD j) := by
      by_cases hj : j < 8 * n
      · simp [hj]
      · rw [BitVec.getLsbD, Nat.testBit_lt_two_pow (lt_of_lt_of_le hlt (Nat.pow_le_pow_right (by decide) (by omega)))]
        simp
    apply BitVec.eq_of_getLsbD_eq
    intro i hi
    rw [byteOf_getLsbD, hbit]
    by_cases hk : k < n
    · have := congrArg (fun b => BitVec.getLsbD b i) ih
      simp only [byteOf_getLsbD, hk, if_true] at this
      rw [if_pos (by omega), this, if_pos (by omega)]
    · by_cases hkn : k = n
      · subst hkn
        simp [hi]
      · rw [if_neg (by omega), if_neg (by omega)]
        have : (f n).getLsbD (8 * k + i - 8 * n) = false := BitVec.getLsbD_of_ge _ _ (by omega)
        simp [this]

/-- Two lanes with the same eight bytes are equal. -/
theorem eq_of_byteOf {v w : BitVec 64} (h : ∀ k < 8, byteOf v k = byteOf w k) : v = w := by
  apply BitVec.eq_of_getLsbD_eq
  intro i hi
  have := congrArg (fun b => BitVec.getLsbD b (i % 8)) (h (i / 8) (by omega))
  simp only [byteOf_getLsbD] at this
  have e : 8 * (i / 8) + i % 8 = i := by omega
  simpa [e, Nat.mod_lt] using this

/-- A lane is the little-endian value of its own bytes. -/
theorem leValue_byteOf (v : BitVec 64) : leValue 8 (byteOf v) = v :=
  eq_of_byteOf fun k hk => by rw [byteOf_leValue 8 _ (by omega), if_pos hk]

/-- Bytes of a XOR. -/
theorem byteOf_xor (v w : BitVec 64) (k : Nat) : byteOf (v ^^^ w) k = byteOf v k ^^^ byteOf w k := by
  apply BitVec.eq_of_getLsbD_eq
  intro i hi
  rw [BitVec.getLsbD_xor, byteOf_getLsbD, byteOf_getLsbD, byteOf_getLsbD, BitVec.getLsbD_xor]
  simp [hi]

@[simp] theorem bytesOf_length (n : Nat) (v : BitVec 64) : (bytesOf n v).length = n := by simp [bytesOf]

theorem bytesOf_getD (n : Nat) (v : BitVec 64) {k : Nat} (hk : k < n) : (bytesOf n v).getD k 0x00#8 = byteOf v k := by
  simp [bytesOf, hk]

/-- The bytes of a packed lane (41_sponge.md R112). -/
theorem byteOf_lanes17 (b : Block) {i k : Nat} (hi : i < 17) (hk : k < 8) :
    byteOf (lanes17 b)[i] k = b[8 * i + k] := by
  simp [lanes17, byteOf_leValue, hk, blockByte, show 8 * i + k < 136 by omega]

theorem blockByte_of_lt (b : Block) {k : Nat} (hk : k < 136) : blockByte b k = b[k] := dif_pos hk

/-- The bytes of a padded final block (41_sponge.md R119). -/
theorem padBlock_getElem (b : Block) {n p : Nat} (hp : p < 136) (hn : n ≤ 135) :
    (padBlock b n)[p] = if p < n then b[p] else if p = n then (if n = 135 then 0x81#8 else 0x01#8)
      else if p = 135 then 0x80#8 else 0x00#8 := by
  simp only [padBlock, padBlockWith, Vector.getElem_ofFn, Config.padMarkers]
  by_cases h1 : p < n
  · simp [h1, show p ≠ n by omega, show p ≠ 135 by omega]
  · by_cases h2 : p = n
    · by_cases h3 : n = 135 <;> simp [h2, h3]
    · by_cases h3 : p = 135 <;> simp [h1, h2, h3]
      have : ¬ 135 < n := by omega
      have : 135 ≠ n := by omega
      simp [*]

end Sys2Proof.Machine
end

