-- ==== Sys2Proof/Laws/PerInstr.lean ====
section
/-! SUPPORT. The family `RoundTrip`: decoding an encoded well-formed instruction gives it back (30_encoding.md
R60 to R66), one lemma for each constructor; and the fields of a word of format K. -/

namespace Sys2Proof

section CommandWord
variable (op : BitVec 4) (n : BitVec 8)
theorem commandWord_getLsbD (i : Nat) : (commandWord op n).getLsbD i =
    (decide (i < 4) && op.getLsbD i || decide (8 ≤ i) && decide (i < 16) && n.getLsbD (i - 8)) := by
  have ho : 4 ≤ i → op.getLsbD i = false := BitVec.getLsbD_of_ge op i
  have hn : 16 ≤ i → n.getLsbD (i - 8) = false := fun h => BitVec.getLsbD_of_ge n (i - 8) (by omega)
  simp only [commandWord, BitVec.getLsbD_or, BitVec.getLsbD_shiftLeft, BitVec.getLsbD_setWidth]
  by_cases h4 : i < 4
  · simp [h4, show i < 8 by omega, show i < 32 by omega, show ¬ 8 ≤ i by omega]
  · by_cases h8 : i < 8
    · simp [h4, h8, show ¬ 8 ≤ i by omega, ho (by omega)]
    · by_cases h16 : i < 16
      · simp [h4, h8, h16, show i < 32 by omega, show i - 8 < 32 by omega, show 8 ≤ i by omega, ho (by omega)]
      · simp [h4, h8, h16, ho (by omega), hn (by omega)]
theorem opField_commandWord : opField (commandWord op n) = op := by
  apply BitVec.eq_of_getLsbD_eq
  intro i hi
  rw [opField, BitVec.getLsbD_extractLsb', commandWord_getLsbD]
  simp [hi, show ¬ 8 ≤ i by omega]
theorem res0Field_commandWord : res0Field (commandWord op n) = 0#4 := by
  apply BitVec.eq_of_getLsbD_eq
  intro i hi
  rw [res0Field, BitVec.getLsbD_extractLsb', commandWord_getLsbD]
  simp [show ¬ 8 ≤ 4 + i by omega]
theorem nField_commandWord : nField (commandWord op n) = n := by
  apply BitVec.eq_of_getLsbD_eq
  intro i hi
  rw [nField, BitVec.getLsbD_extractLsb', commandWord_getLsbD]
  simp [hi, show ¬ 8 + i < 4 by omega, show 8 + i < 16 by omega]
theorem res1Field_commandWord : res1Field (commandWord op n) = 0#16 := by
  apply BitVec.eq_of_getLsbD_eq
  intro i hi
  rw [res1Field, BitVec.getLsbD_extractLsb', commandWord_getLsbD]
  simp [show ¬ 16 + i < 4 by omega]
end CommandWord

/-- The code of a phase names it (R66). -/
@[simp] theorem Phase.ofCode_code (p : Phase) : Phase.ofCode p.code = p := by cases p <;> rfl

/-- The decoder reads a phase's code as the phase's row. -/
theorem decode_phase_code (p : Phase) : decode (.phase p.code) = .ok p.toInstr := by cases p <;> rfl

/-- The statement of the family: decode after encode is the instruction. -/
def Laws.RoundTrip.Statement (i : Instr) : Prop := i.wf = true → decode (encode i) = .ok i

namespace Laws.RoundTrip

theorem plain {op : BitVec 4} {i : Instr}
    (h : decodeCommand (commandWord op 0#8) = decodePlain (commandWord op 0#8) i) :
    decodeCommand (commandWord op 0#8) = .ok i := by
  rw [h, decodePlain, nField_commandWord, if_pos rfl]

theorem init : Statement .init := fun _ => rfl
theorem absorb : Statement .absorb := fun _ => rfl
theorem final (n : BitVec 8) : Statement (.final n) := fun h => by
  have hn : n.toNat ≤ 135 := by simpa [Instr.wf] using h
  simp [encode, decode, decodeCommand, decodeFinal, res1Field_commandWord, res0Field_commandWord,
    opField_commandWord, nField_commandWord, opFinal, opInit, opAbsorb, hn]
theorem permute : Statement .permute := fun _ => rfl
theorem squeeze : Statement .squeeze := fun _ => rfl
theorem phaseIdle : Statement .phaseIdle := fun _ => rfl
theorem phaseClr : Statement .phaseClr := fun _ => rfl
theorem phaseXor : Statement .phaseXor := fun _ => rfl
theorem phaseTheta : Statement .phaseTheta := fun _ => rfl
theorem phaseRhopi : Statement .phaseRhopi := fun _ => rfl
theorem phaseChi : Statement .phaseChi := fun _ => rfl
theorem phaseIota : Statement .phaseIota := fun _ => rfl
theorem phaseSqz : Statement .phaseSqz := fun _ => rfl

end Laws.RoundTrip

end Sys2Proof
end

