-- ==== Sys2Proof/Laws/State.lean ====
section
/-! SUPPORT. One lemma for each field under each update of the state, and what the updates do to `BUSY`. -/

namespace Sys2Proof.Machine

variable (s : State)

section Raise
variable (e : ErrFlag)
@[simp] theorem State.raise_lanes : (s.raise e).lanes = s.lanes := by cases e <;> rfl
@[simp] theorem State.raise_mem : (s.raise e).mem = s.mem := by cases e <;> rfl
@[simp] theorem State.raise_r : (s.raise e).r = s.r := by cases e <;> rfl
@[simp] theorem State.raise_rnd : (s.raise e).rnd = s.rnd := by cases e <;> rfl
@[simp] theorem State.raise_phase : (s.raise e).phase = s.phase := by cases e <;> rfl
@[simp] theorem State.raise_pend : (s.raise e).pend = s.pend := by cases e <;> rfl
@[simp] theorem State.raise_turns : (s.raise e).turns = s.turns := by cases e <;> rfl
@[simp] theorem State.raise_reads : (s.raise e).reads = s.reads := by cases e <;> rfl
@[simp] theorem State.raise_busy : (s.raise e).busy = s.busy := by cases e <;> rfl
@[simp] theorem State.raise_block : (s.raise e).block = s.block := by cases e <;> rfl
@[simp] theorem State.raise_dout : (s.raise e).dout = s.dout := by cases e <;> rfl
@[simp] theorem State.raise_work : (s.raise e).work = s.work := by cases e <;> rfl
theorem State.raise_err (e' : ErrFlag) : (s.raise e).err e' = (decide (e' = e) || s.err e') := by
  cases e <;> cases e' <;> rfl
@[simp] theorem State.raise_acc : s.raise .acc = { s with errAcc := true } := rfl
@[simp] theorem State.raise_busyFlag : s.raise .busy = { s with errBusy := true } := rfl
@[simp] theorem State.raise_cmd : s.raise .cmd = { s with errCmd := true } := rfl
end Raise

section ClearErrors
@[simp] theorem State.clearErrors_lanes : s.clearErrors.lanes = s.lanes := rfl
@[simp] theorem State.clearErrors_mem : s.clearErrors.mem = s.mem := rfl
@[simp] theorem State.clearErrors_errCmd : s.clearErrors.errCmd = false := rfl
@[simp] theorem State.clearErrors_errBusy : s.clearErrors.errBusy = false := rfl
@[simp] theorem State.clearErrors_errAcc : s.clearErrors.errAcc = false := rfl
@[simp] theorem State.clearErrors_r : s.clearErrors.r = s.r := rfl
@[simp] theorem State.clearErrors_rnd : s.clearErrors.rnd = s.rnd := rfl
@[simp] theorem State.clearErrors_phase : s.clearErrors.phase = s.phase := rfl
@[simp] theorem State.clearErrors_pend : s.clearErrors.pend = s.pend := rfl
@[simp] theorem State.clearErrors_turns : s.clearErrors.turns = s.turns := rfl
@[simp] theorem State.clearErrors_reads : s.clearErrors.reads = s.reads := rfl
end ClearErrors

section Latch
variable (op : BitVec 4) (n : BitVec 8)
@[simp] theorem State.latch_lanes : (s.latch op n).lanes = s.lanes := rfl
@[simp] theorem State.latch_mem : (s.latch op n).mem = s.mem := rfl
@[simp] theorem State.latch_errCmd : (s.latch op n).errCmd = s.errCmd := rfl
@[simp] theorem State.latch_errBusy : (s.latch op n).errBusy = s.errBusy := rfl
@[simp] theorem State.latch_errAcc : (s.latch op n).errAcc = s.errAcc := rfl
@[simp] theorem State.latch_r : (s.latch op n).r = s.r := rfl
@[simp] theorem State.latch_rnd : (s.latch op n).rnd = s.rnd := rfl
@[simp] theorem State.latch_phase : (s.latch op n).phase = s.phase := rfl
@[simp] theorem State.latch_pend : (s.latch op n).pend = { op := op, n := n } := rfl
@[simp] theorem State.latch_turns : (s.latch op n).turns = s.turns := rfl
@[simp] theorem State.latch_reads : (s.latch op n).reads = s.reads := rfl
end Latch

section Seed
@[simp] theorem State.seed_lanes : s.seed.lanes = s.lanes := rfl
@[simp] theorem State.seed_mem : s.seed.mem = s.mem := rfl
@[simp] theorem State.seed_errCmd : s.seed.errCmd = s.errCmd := rfl
@[simp] theorem State.seed_errBusy : s.seed.errBusy = s.errBusy := rfl
@[simp] theorem State.seed_errAcc : s.seed.errAcc = s.errAcc := rfl
@[simp] theorem State.seed_r : s.seed.r = Config.lfsrSeed := rfl
@[simp] theorem State.seed_rnd : s.seed.rnd = 0#5 := rfl
@[simp] theorem State.seed_phase : s.seed.phase = s.phase := rfl
@[simp] theorem State.seed_pend : s.seed.pend = s.pend := rfl
@[simp] theorem State.seed_turns : s.seed.turns = s.turns := rfl
@[simp] theorem State.seed_reads : s.seed.reads = s.reads := rfl
end Seed

section Enter
variable (p : Phase)
@[simp] theorem State.enter_lanes : (s.enter p).lanes = s.lanes := rfl
@[simp] theorem State.enter_mem : (s.enter p).mem = s.mem := rfl
@[simp] theorem State.enter_errCmd : (s.enter p).errCmd = s.errCmd := rfl
@[simp] theorem State.enter_errBusy : (s.enter p).errBusy = s.errBusy := rfl
@[simp] theorem State.enter_errAcc : (s.enter p).errAcc = s.errAcc := rfl
@[simp] theorem State.enter_r : (s.enter p).r = s.r := rfl
@[simp] theorem State.enter_rnd : (s.enter p).rnd = s.rnd := rfl
@[simp] theorem State.enter_phase : (s.enter p).phase = p := rfl
@[simp] theorem State.enter_pend : (s.enter p).pend = s.pend := rfl
@[simp] theorem State.enter_turns : (s.enter p).turns = s.turns := rfl
@[simp] theorem State.enter_reads : (s.enter p).reads = s.reads := rfl
@[simp] theorem State.enter_busy : (s.enter p).busy = decide (p ≠ .idle) := rfl
@[simp] theorem State.enter_block : (s.enter p).block = s.block := rfl
@[simp] theorem State.enter_dout : (s.enter p).dout = s.dout := rfl
end Enter

section SetDout
variable (d : Digest)
@[simp] theorem State.setDout_lanes : (s.setDout d).lanes = s.lanes := rfl
@[simp] theorem State.setDout_mem : (s.setDout d).mem = s.mem.writeBytes doutBase d.toList := rfl
@[simp] theorem State.setDout_errCmd : (s.setDout d).errCmd = s.errCmd := rfl
@[simp] theorem State.setDout_errBusy : (s.setDout d).errBusy = s.errBusy := rfl
@[simp] theorem State.setDout_errAcc : (s.setDout d).errAcc = s.errAcc := rfl
@[simp] theorem State.setDout_r : (s.setDout d).r = s.r := rfl
@[simp] theorem State.setDout_rnd : (s.setDout d).rnd = s.rnd := rfl
@[simp] theorem State.setDout_phase : (s.setDout d).phase = s.phase := rfl
@[simp] theorem State.setDout_pend : (s.setDout d).pend = s.pend := rfl
@[simp] theorem State.setDout_turns : (s.setDout d).turns = s.turns := rfl
@[simp] theorem State.setDout_reads : (s.setDout d).reads = s.reads := rfl
end SetDout

/-- `BUSY` is 0 exactly in `IDLE` (10_state.md R30). -/
theorem State.busy_eq_false : s.busy = false ↔ s.phase = .idle := by simp [State.busy]

/-- `BUSY` is 1 exactly outside `IDLE` (10_state.md R30). -/
theorem State.busy_eq_true : s.busy = true ↔ s.phase ≠ .idle := by simp [State.busy]

/-- `BUSY` in a given phase. -/
theorem State.busy_of_phase {p : Phase} (h : s.phase = p) : s.busy = decide (p ≠ .idle) := by
  rw [State.busy, h]

end Sys2Proof.Machine
end

