-- ==== Sys2Proof/Laws/Exec.lean ====
section
/-! SUPPORT. What the shared operations of the meanings can do, and everything one step of the sequencer can do. -/

namespace Sys2Proof.Machine

variable {s t : State}

/-- Two next states that are the same outcome are the same state. -/
theorem next_inj {s t : State} (h : (.next s : Result) = .next t) : s = t := by injection h

/-! ### A write to `CMD` -/

/-- While busy a command is turned away with `ERR_BUSY`. -/
theorem State.issueWith_busy (h : s.phase ≠ .idle) (legal : Bool) (t : State) :
    s.issueWith legal t = .next { s with errBusy := true } := by
  rw [State.issueWith, if_pos (s.busy_eq_true.mpr h)]
  rfl

/-- While idle a legal command is issued. -/
theorem State.issueWith_legal (h : s.phase = .idle) (t : State) : s.issueWith true t = .next t := by
  rw [State.issueWith, s.busy_eq_false.mpr h]
  rfl

/-- While idle an illegal command raises `ERR_CMD`. -/
theorem State.issueWith_illegal (h : s.phase = .idle) (t : State) :
    s.issueWith false t = .next { s with errCmd := true } := by
  rw [State.issueWith, s.busy_eq_false.mpr h]
  rfl

/-- A word that is no command, while idle. -/
theorem State.rejectWord_idle (h : s.phase = .idle) : s.rejectWord = .next { s with errCmd := true } :=
  State.issueWith_illegal h s

/-- A word that is no command, while busy. -/
theorem State.rejectWord_busy (h : s.phase ≠ .idle) : s.rejectWord = .next { s with errBusy := true } :=
  State.issueWith_busy h false s

/-- The commands of the opcode table, as against its phases. -/
def isCommand : Instr → Bool
  | .init => true
  | .absorb => true
  | .final _ => true
  | .permute => true
  | .squeeze => true
  | .phaseIdle => false
  | .phaseClr => false
  | .phaseXor => false
  | .phaseTheta => false
  | .phaseRhopi => false
  | .phaseChi => false
  | .phaseIota => false
  | .phaseSqz => false

/-- The state a command is issued into (42_commands.md R130). -/
def State.issued (s : State) : Instr → State
  | .init => (s.latch opInit 0#8).clearErrors.enter .clr
  | .absorb => (s.latch opAbsorb 0#8).seed.enter .xor
  | .final n => (s.latch opFinal n).seed.enter .xor
  | .permute => (s.latch opPermute 0#8).seed.enter .theta
  | .squeeze => (s.latch opSqueeze 0#8).enter .sqz
  | .phaseIdle => s
  | .phaseClr => s
  | .phaseXor => s
  | .phaseTheta => s
  | .phaseRhopi => s
  | .phaseChi => s
  | .phaseIota => s
  | .phaseSqz => s

/-- A command's meaning is the checks of a write to `CMD` and the command's issue. -/
theorem exec_command {i : Instr} (hi : isCommand i = true) (s : State) :
    exec i s = s.issueWith i.wf (s.issued i) := by
  cases i <;> first | rfl | simp [isCommand] at hi

theorem exec_command_busy {i : Instr} (hi : isCommand i = true) (h : s.phase ≠ .idle) :
    exec i s = .next { s with errBusy := true } := by
  rw [exec_command hi, State.issueWith_busy h]

theorem exec_command_idle {i : Instr} (hi : isCommand i = true) (hw : i.wf = true) (h : s.phase = .idle) :
    exec i s = .next (s.issued i) := by
  rw [exec_command hi, hw, State.issueWith_legal h]

/-- The decoder of command words gives only commands, and only well-formed ones. -/
theorem decodeCommand_ok {w : Word} {i : Instr} (h : decodeCommand w = .ok i) :
    isCommand i = true ∧ i.wf = true := by
  have plain {w : Word} {i j : Instr} (h : decodePlain w i = .ok j) : i = j := by
    rw [decodePlain] at h
    split at h
    · exact Except.ok.inj h
    · cases h
  rw [decodeCommand] at h
  split at h
  · cases h
  split at h
  · cases h
  split at h
  · rw [← plain h]; exact ⟨rfl, rfl⟩
  split at h
  · rw [← plain h]; exact ⟨rfl, rfl⟩
  split at h
  · rw [decodeFinal] at h
    split at h
    · rw [← Except.ok.inj h]
      exact ⟨rfl, by simpa [Instr.wf]⟩
    · cases h
  split at h
  · rw [← plain h]; exact ⟨rfl, rfl⟩
  split at h
  · rw [← plain h]; exact ⟨rfl, rfl⟩
  · cases h

/-! ### A phase -/

theorem State.whenPhase_enabled {p : Phase} (h : s.phase = p) (act : Result) : s.whenPhase p act = act := if_pos h

theorem State.whenPhase_disabled {p : Phase} (h : s.phase ≠ p) (act : Result) :
    s.whenPhase p act = .fault (.phaseNotEnabled p) := if_neg h

/-- The state after XOR_BLOCK of a block (42_commands.md R138). -/
def State.xored (s : State) (b : Block) : State := { s with lanes := xorBlock s.lanes (lanes17 b), phase := .theta }

/-- The state after CLR (R137). -/
def State.cleared (s : State) : State :=
  (({ s with lanes := zeroLanes } : State).setDout (Vector.replicate 32 0x00#8)).enter .idle

/-- The state after SQZ (R143). -/
def State.squeezed (s : State) : State := (s.setDout (squeezeOut s.lanes)).enter .idle

/-- The state after IOTA (R142). -/
def State.iotaDone (s : State) : State :=
  ({ s with lanes := (iota s.lanes s.r).1, r := (iota s.lanes s.r).2 } : State).closeRound

section PhaseFields
variable (b : Block)
@[simp] theorem State.xored_lanes : (s.xored b).lanes = xorBlock s.lanes (lanes17 b) := by simp [State.xored]
@[simp] theorem State.xored_mem : (s.xored b).mem = s.mem := by simp [State.xored]
@[simp] theorem State.xored_errCmd : (s.xored b).errCmd = s.errCmd := by simp [State.xored]
@[simp] theorem State.xored_errBusy : (s.xored b).errBusy = s.errBusy := by simp [State.xored]
@[simp] theorem State.xored_errAcc : (s.xored b).errAcc = s.errAcc := by simp [State.xored]
@[simp] theorem State.xored_r : (s.xored b).r = s.r := by simp [State.xored]
@[simp] theorem State.xored_rnd : (s.xored b).rnd = s.rnd := by simp [State.xored]
@[simp] theorem State.xored_pend : (s.xored b).pend = s.pend := by simp [State.xored]
@[simp] theorem State.xored_turns : (s.xored b).turns = s.turns := by simp [State.xored]
@[simp] theorem State.xored_reads : (s.xored b).reads = s.reads := by simp [State.xored]
@[simp] theorem State.xored_phase : (s.xored b).phase = .theta := by simp [State.xored]
@[simp] theorem State.cleared_lanes : s.cleared.lanes = zeroLanes := by simp [State.cleared]
@[simp] theorem State.cleared_mem : s.cleared.mem = s.mem.writeBytes doutBase (Vector.replicate 32 0x00#8).toList := by
  simp [State.cleared]
@[simp] theorem State.cleared_errCmd : s.cleared.errCmd = s.errCmd := by simp [State.cleared]
@[simp] theorem State.cleared_errBusy : s.cleared.errBusy = s.errBusy := by simp [State.cleared]
@[simp] theorem State.cleared_errAcc : s.cleared.errAcc = s.errAcc := by simp [State.cleared]
@[simp] theorem State.cleared_r : s.cleared.r = s.r := by simp [State.cleared]
@[simp] theorem State.cleared_rnd : s.cleared.rnd = s.rnd := by simp [State.cleared]
@[simp] theorem State.cleared_pend : s.cleared.pend = s.pend := by simp [State.cleared]
@[simp] theorem State.cleared_turns : s.cleared.turns = s.turns := by simp [State.cleared]
@[simp] theorem State.cleared_reads : s.cleared.reads = s.reads := by simp [State.cleared]
@[simp] theorem State.cleared_phase : s.cleared.phase = .idle := by simp [State.cleared]
@[simp] theorem State.squeezed_lanes : s.squeezed.lanes = s.lanes := by simp [State.squeezed]
@[simp] theorem State.squeezed_mem : s.squeezed.mem = s.mem.writeBytes doutBase (squeezeOut s.lanes).toList := by
  simp [State.squeezed]
@[simp] theorem State.squeezed_errCmd : s.squeezed.errCmd = s.errCmd := by simp [State.squeezed]
@[simp] theorem State.squeezed_errBusy : s.squeezed.errBusy = s.errBusy := by simp [State.squeezed]
@[simp] theorem State.squeezed_errAcc : s.squeezed.errAcc = s.errAcc := by simp [State.squeezed]
@[simp] theorem State.squeezed_r : s.squeezed.r = s.r := by simp [State.squeezed]
@[simp] theorem State.squeezed_rnd : s.squeezed.rnd = s.rnd := by simp [State.squeezed]
@[simp] theorem State.squeezed_pend : s.squeezed.pend = s.pend := by simp [State.squeezed]
@[simp] theorem State.squeezed_turns : s.squeezed.turns = s.turns := by simp [State.squeezed]
@[simp] theorem State.squeezed_reads : s.squeezed.reads = s.reads := by simp [State.squeezed]
@[simp] theorem State.squeezed_phase : s.squeezed.phase = .idle := by simp [State.squeezed]
end PhaseFields

theorem engineTurn_idle (h : s.phase = .idle) : engineTurn s = .next s := by
  rw [engineTurn, h]
  exact State.whenPhase_enabled h _

theorem engineTurn_clr (h : s.phase = .clr) : engineTurn s = .next s.cleared := by
  rw [engineTurn, h]
  exact State.whenPhase_enabled h _

theorem engineTurn_xor (h : s.phase = .xor) {b : Block} (hb : s.xorOperand = .ok b) :
    engineTurn s = .next (s.xored b) := by
  rw [engineTurn, h]
  refine (State.whenPhase_enabled h _).trans ?_
  rw [hb]
  rfl

theorem engineTurn_xor_stop (h : s.phase = .xor) {f : Fault} (hb : s.xorOperand = .error f) :
    engineTurn s = .fault f := by
  rw [engineTurn, h]
  refine (State.whenPhase_enabled h _).trans ?_
  rw [hb]

theorem engineTurn_theta (h : s.phase = .theta) :
    engineTurn s = .next { s with lanes := theta s.lanes, phase := .rhopi } := by
  rw [engineTurn, h]
  exact State.whenPhase_enabled h _

theorem engineTurn_rhopi (h : s.phase = .rhopi) :
    engineTurn s = .next { s with lanes := rhoPi s.lanes, phase := .chi } := by
  rw [engineTurn, h]
  exact State.whenPhase_enabled h _

theorem engineTurn_chi (h : s.phase = .chi) :
    engineTurn s = .next { s with lanes := chi s.lanes, phase := .iota } := by
  rw [engineTurn, h]
  exact State.whenPhase_enabled h _

theorem engineTurn_iota (h : s.phase = .iota) (hr : s.rnd.toNat ≤ 23) : engineTurn s = .next s.iotaDone := by
  rw [engineTurn, h]
  refine (State.whenPhase_enabled h _).trans ?_
  rw [if_pos hr]
  rfl

theorem engineTurn_iota_stop (h : s.phase = .iota) (hr : ¬ s.rnd.toNat ≤ 23) :
    engineTurn s = .fault .rndOutOfRange := by
  rw [engineTurn, h]
  refine (State.whenPhase_enabled h _).trans ?_
  rw [if_neg hr]

theorem engineTurn_sqz (h : s.phase = .sqz) : engineTurn s = .next s.squeezed := by
  rw [engineTurn, h]
  exact State.whenPhase_enabled h _

/-- Everything one step of the sequencer can do when it gives a next state. -/
theorem engineTurn_cases (h : engineTurn s = .next t) :
    (s.phase = .idle ∧ t = s) ∨ (s.phase = .clr ∧ t = s.cleared) ∨
    (s.phase = .xor ∧ ∃ b, s.xorOperand = .ok b ∧ t = s.xored b) ∨
    (s.phase = .theta ∧ t = { s with lanes := theta s.lanes, phase := .rhopi }) ∨
    (s.phase = .rhopi ∧ t = { s with lanes := rhoPi s.lanes, phase := .chi }) ∨
    (s.phase = .chi ∧ t = { s with lanes := chi s.lanes, phase := .iota }) ∨
    (s.phase = .iota ∧ s.rnd.toNat ≤ 23 ∧ t = s.iotaDone) ∨ (s.phase = .sqz ∧ t = s.squeezed) := by
  cases hp : s.phase with
  | idle => rw [engineTurn_idle hp] at h; exact .inl ⟨rfl, (next_inj h).symm⟩
  | clr => rw [engineTurn_clr hp] at h; exact .inr (.inl ⟨rfl, (next_inj h).symm⟩)
  | xor =>
    cases hb : s.xorOperand with
    | ok b => rw [engineTurn_xor hp hb] at h; exact .inr (.inr (.inl ⟨rfl, b, rfl, (next_inj h).symm⟩))
    | error f => rw [engineTurn_xor_stop hp hb] at h; cases h
  | theta => rw [engineTurn_theta hp] at h; exact .inr (.inr (.inr (.inl ⟨rfl, (next_inj h).symm⟩)))
  | rhopi => rw [engineTurn_rhopi hp] at h; exact .inr (.inr (.inr (.inr (.inl ⟨rfl, (next_inj h).symm⟩))))
  | chi => rw [engineTurn_chi hp] at h; exact .inr (.inr (.inr (.inr (.inr (.inl ⟨rfl, (next_inj h).symm⟩)))))
  | iota =>
    by_cases hr : s.rnd.toNat ≤ 23
    · rw [engineTurn_iota hp hr] at h; exact .inr (.inr (.inr (.inr (.inr (.inr (.inl ⟨rfl, hr, (next_inj h).symm⟩))))))
    · rw [engineTurn_iota_stop hp hr] at h; cases h
  | sqz => rw [engineTurn_sqz hp] at h; exact .inr (.inr (.inr (.inr (.inr (.inr (.inr ⟨rfl, (next_inj h).symm⟩))))))

/-- The block the XOR phase takes under ABSORB and under FINAL (42_commands.md R138). -/
theorem State.xorOperand_absorb (h : s.pend.op = opAbsorb) : s.xorOperand = .ok s.block := if_pos h

theorem State.xorOperand_final (h : s.pend.op = opFinal) (hn : s.pend.n.toNat ≤ 135) :
    s.xorOperand = .ok (padBlock s.block s.pend.n.toNat) := by
  rw [State.xorOperand, if_neg (by rw [h]; decide), if_pos h, if_pos hn]

/-! ### The round loop (42_commands.md R142) -/

theorem State.closeRound_next (h : s.rnd.toNat < 23) :
    s.closeRound = { s with rnd := s.rnd + 1#5, phase := .theta } := if_pos h

theorem State.closeRound_squeeze (h : ¬ s.rnd.toNat < 23) (ho : s.pend.op = opFinal) :
    s.closeRound = { s with phase := .sqz } := (if_neg h).trans (if_pos ho)

theorem State.closeRound_end (h : ¬ s.rnd.toNat < 23) (ho : s.pend.op ≠ opFinal) :
    s.closeRound = { s with phase := .idle } := (if_neg h).trans (if_neg ho)

section CloseRoundFields
@[simp] theorem State.closeRound_lanes : s.closeRound.lanes = s.lanes := by
  unfold State.closeRound; split_ifs <;> rfl
@[simp] theorem State.closeRound_mem : s.closeRound.mem = s.mem := by
  unfold State.closeRound; split_ifs <;> rfl
@[simp] theorem State.closeRound_errCmd : s.closeRound.errCmd = s.errCmd := by
  unfold State.closeRound; split_ifs <;> rfl
@[simp] theorem State.closeRound_errBusy : s.closeRound.errBusy = s.errBusy := by
  unfold State.closeRound; split_ifs <;> rfl
@[simp] theorem State.closeRound_errAcc : s.closeRound.errAcc = s.errAcc := by
  unfold State.closeRound; split_ifs <;> rfl
@[simp] theorem State.closeRound_r : s.closeRound.r = s.r := by
  unfold State.closeRound; split_ifs <;> rfl
@[simp] theorem State.closeRound_pend : s.closeRound.pend = s.pend := by
  unfold State.closeRound; split_ifs <;> rfl
@[simp] theorem State.closeRound_turns : s.closeRound.turns = s.turns := by
  unfold State.closeRound; split_ifs <;> rfl
@[simp] theorem State.closeRound_reads : s.closeRound.reads = s.reads := by
  unfold State.closeRound; split_ifs <;> rfl
end CloseRoundFields

section IotaDoneFields
@[simp] theorem State.iotaDone_lanes : s.iotaDone.lanes = (iota s.lanes s.r).1 := State.closeRound_lanes
@[simp] theorem State.iotaDone_mem : s.iotaDone.mem = s.mem := State.closeRound_mem
@[simp] theorem State.iotaDone_r : s.iotaDone.r = lfsrAfter s.r 7 := State.closeRound_r
@[simp] theorem State.iotaDone_pend : s.iotaDone.pend = s.pend := State.closeRound_pend
@[simp] theorem State.iotaDone_turns : s.iotaDone.turns = s.turns := State.closeRound_turns
@[simp] theorem State.iotaDone_reads : s.iotaDone.reads = s.reads := State.closeRound_reads

theorem State.iotaDone_next (h : s.rnd.toNat < 23) : s.iotaDone =
    { s with lanes := (iota s.lanes s.r).1, r := lfsrAfter s.r 7, rnd := s.rnd + 1#5, phase := .theta } :=
  State.closeRound_next (s := { s with lanes := (iota s.lanes s.r).1, r := (iota s.lanes s.r).2 }) h

theorem State.iotaDone_squeeze (h : ¬ s.rnd.toNat < 23) (ho : s.pend.op = opFinal) : s.iotaDone =
    { s with lanes := (iota s.lanes s.r).1, r := lfsrAfter s.r 7, phase := .sqz } :=
  State.closeRound_squeeze (s := { s with lanes := (iota s.lanes s.r).1, r := (iota s.lanes s.r).2 }) h ho

theorem State.iotaDone_end (h : ¬ s.rnd.toNat < 23) (ho : s.pend.op ≠ opFinal) : s.iotaDone =
    { s with lanes := (iota s.lanes s.r).1, r := lfsrAfter s.r 7, phase := .idle } :=
  State.closeRound_end (s := { s with lanes := (iota s.lanes s.r).1, r := (iota s.lanes s.r).2 }) h ho
end IotaDoneFields

/-- The counter goes up by one without wrapping. -/
theorem rnd_succ (h : s.rnd.toNat < 23) : (s.rnd + 1#5).toNat = s.rnd.toNat + 1 := by
  rw [BitVec.toNat_add]
  simp
  omega

end Sys2Proof.Machine
end

