-- ==== Sys2Proof/Laws/Memory.lean ====
section
/-! SUPPORT. The stored bytes: a read after a write, what a write leaves alone, and the canonical form, which
every operation keeps. -/

namespace Sys2Proof.Machine

variable (m : Memory)

@[simp] theorem Memory.read_nil (a : Nat) : Memory.read [] a = Memory.unlisted := rfl

@[simp] theorem Memory.read_cons (c : Host.Cell) (a : Nat) :
    Memory.read (c :: m) a = if c.1 = a then c.2 else Memory.read m a := rfl

/-- Erasing an offset makes it read as unlisted and leaves every other offset alone. -/
theorem Memory.read_erase (a b : Nat) :
    (m.erase a).read b = if b = a then Memory.unlisted else m.read b := by
  induction m with
  | nil => simp [Memory.erase]
  | cons c m ih =>
    have hstep : Memory.erase (c :: m) a = if c.1 ≠ a then c :: Memory.erase m a else Memory.erase m a := by
      by_cases h : c.1 = a <;> simp [Memory.erase, h]
    rw [hstep]
    by_cases h : c.1 = a
    · rw [if_neg (by simpa using h), ih]
      by_cases hb : b = a
      · simp [hb]
      · have : c.1 ≠ b := fun e => hb (e ▸ h)
        simp [hb, this]
    · rw [if_pos h]
      by_cases hb : b = a
      · subst hb
        simp [h, ih]
      · simp [hb, ih]

/-- No entry for an erased offset stays. -/
theorem Memory.ne_of_mem_erase {a : Nat} {c : Host.Cell} (h : c ∈ m.erase a) : c.1 ≠ a := by
  simpa using (List.mem_filter.mp h).2

/-- Inserting at an offset without an entry adds one byte and leaves every other offset alone. -/
theorem Memory.read_insert {a : Nat} (v : Byte) (h : ∀ c ∈ m, c.1 ≠ a) (b : Nat) :
    (m.insert a v).read b = if b = a then v else m.read b := by
  induction m with
  | nil => simp [Memory.insert, eq_comm]
  | cons c m ih =>
    have hc : c.1 ≠ a := h c (by simp)
    have ih' := ih fun d hd => h d (by simp [hd])
    rw [Memory.insert]
    by_cases hlt : a < c.1
    · rw [if_pos hlt]
      simp [eq_comm]
    · rw [if_neg hlt, Memory.read_cons, Memory.read_cons, ih']
      by_cases hb : b = a
      · subst hb
        simp [hc]
      · simp [hb]

/-- A read after a write: the byte at the offset written, every other byte as before. -/
theorem Memory.read_write (a : Nat) (v : Byte) (b : Nat) :
    (m.write a v).read b = if b = a then v else m.read b := by
  by_cases hv : v = Memory.unlisted
  · rw [Memory.write, if_pos hv, Memory.read_erase]
    by_cases hb : b = a <;> simp [hb, hv]
  · rw [Memory.write, if_neg hv, Memory.read_insert _ _ (fun c hc => Memory.ne_of_mem_erase m hc),
      Memory.read_erase]
    by_cases hb : b = a <;> simp [hb]

@[simp] theorem Memory.writeBytes_nil (a : Nat) : m.writeBytes a [] = m := rfl

@[simp] theorem Memory.writeBytes_cons (a : Nat) (v : Byte) (vs : List Byte) :
    m.writeBytes a (v :: vs) = (m.write a v).writeBytes (a + 1) vs := rfl

/-- A read after consecutive writes. -/
theorem Memory.read_writeBytes (a : Nat) (vs : List Byte) (b : Nat) :
    (m.writeBytes a vs).read b =
      if a ≤ b ∧ b < a + vs.length then vs.getD (b - a) 0x00#8 else m.read b := by
  induction vs generalizing m a with
  | nil =>
    rw [Memory.writeBytes_nil, if_neg (by simp)]
  | cons v vs ih =>
    rw [Memory.writeBytes_cons, ih, Memory.read_write]
    by_cases hb : b = a
    · subst hb
      simp
    · by_cases hr : a + 1 ≤ b ∧ b < a + 1 + vs.length
      · have h1 : a ≤ b ∧ b < a + (v :: vs).length := by simp; omega
        have h2 : b - a = (b - (a + 1)) + 1 := by omega
        rw [if_pos hr, if_pos h1, h2, List.getD_cons_succ]
      · have h1 : ¬ (a ≤ b ∧ b < a + (v :: vs).length) := by simp; omega
        rw [if_neg hr, if_neg h1, if_neg hb]

/-- Outside the bytes written, every byte is as before. -/
theorem Memory.read_writeBytes_outside (a : Nat) (vs : List Byte) (b : Nat) (h : b < a ∨ a + vs.length ≤ b) :
    (m.writeBytes a vs).read b = m.read b := by
  rw [Memory.read_writeBytes, if_neg (by omega)]

/-- The entries after an insertion are the entries before it and the new one. -/
theorem Memory.mem_insert {a : Nat} {v : Byte} {c : Host.Cell} :
    c ∈ m.insert a v ↔ c = (a, v) ∨ c ∈ m := by
  induction m with
  | nil => simp [Memory.insert]
  | cons d m ih =>
    rw [Memory.insert]
    by_cases h : a < d.1
    · simp [h]
    · rw [if_neg h, List.mem_cons, ih, List.mem_cons]
      tauto

/-- Erasing keeps the canonical form. -/
theorem Memory.wf_erase (a : Nat) (h : m.wf) : (m.erase a).wf :=
  ⟨h.1.filter _, fun c hc => h.2 c (List.mem_of_mem_filter hc)⟩

/-- Inserting a listable byte at an offset without an entry keeps the canonical form. -/
theorem Memory.wf_insert {a : Nat} {v : Byte} (h : m.wf) (hv : v ≠ Memory.unlisted) (ha : ∀ c ∈ m, c.1 ≠ a) :
    (m.insert a v).wf := by
  induction m with
  | nil => simp [Memory.insert, Memory.wf, hv]
  | cons d m ih =>
    obtain ⟨hp, hn⟩ := h
    rw [List.pairwise_cons] at hp
    have hd : d.1 ≠ a := ha d (by simp)
    have ih' := ih ⟨hp.2, fun c hc => hn c (by simp [hc])⟩ fun c hc => ha c (by simp [hc])
    rw [Memory.insert]
    by_cases hlt : a < d.1
    · rw [if_pos hlt]
      refine ⟨?_, ?_⟩
      · rw [List.pairwise_cons, List.pairwise_cons]
        refine ⟨fun c hc => ?_, hp⟩
        rcases List.mem_cons.mp hc with rfl | hc
        · exact hlt
        · exact lt_trans hlt (hp.1 c hc)
      · intro c hc
        rcases List.mem_cons.mp hc with rfl | hc
        · exact hv
        · exact hn c hc
    · rw [if_neg hlt]
      refine ⟨?_, ?_⟩
      · rw [List.pairwise_cons]
        refine ⟨fun c hc => ?_, ih'.1⟩
        rcases (Memory.mem_insert m).mp hc with rfl | hc
        · change d.1 < a
          omega
        · exact hp.1 c hc
      · intro c hc
        rcases List.mem_cons.mp hc with rfl | hc
        · exact hn _ (by simp)
        · exact ih'.2 c hc

/-- A write keeps the canonical form. -/
theorem Memory.wf_write (a : Nat) (v : Byte) (h : m.wf) : (m.write a v).wf := by
  rw [Memory.write]
  by_cases hv : v = Memory.unlisted
  · rw [if_pos hv]
    exact Memory.wf_erase m a h
  · rw [if_neg hv]
    exact Memory.wf_insert _ (Memory.wf_erase m a h) hv fun c hc => Memory.ne_of_mem_erase m hc

/-- Consecutive writes keep the canonical form. -/
theorem Memory.wf_writeBytes (a : Nat) (vs : List Byte) (h : m.wf) : (m.writeBytes a vs).wf := by
  induction vs generalizing m a with
  | nil => exact h
  | cons v vs ih => exact ih _ _ (Memory.wf_write m a v h)

/-- Every entry after a write was there before or is at the offset written. -/
theorem Memory.mem_write {a : Nat} {v : Byte} {c : Host.Cell} (h : c ∈ m.write a v) : c.1 = a ∨ c ∈ m := by
  rw [Memory.write] at h
  by_cases hv : v = Memory.unlisted
  · rw [if_pos hv] at h
    exact .inr (List.mem_of_mem_filter h)
  · rw [if_neg hv] at h
    rcases (Memory.mem_insert _).mp h with rfl | h
    · exact .inl rfl
    · exact .inr (List.mem_of_mem_filter h)

/-- Every entry after consecutive writes was there before or is at an offset written. -/
theorem Memory.mem_writeBytes {a : Nat} {vs : List Byte} {c : Host.Cell} (h : c ∈ m.writeBytes a vs) :
    (a ≤ c.1 ∧ c.1 < a + vs.length) ∨ c ∈ m := by
  induction vs generalizing m a with
  | nil => exact .inr h
  | cons v vs ih =>
    rcases ih _ h with h | h
    · exact .inl (by simp; omega)
    · rcases Memory.mem_write _ h with h | h
      · exact .inl (by simp; omega)
      · exact .inr h

/-- Two canonical memories that read the same at every offset are equal. -/
theorem Memory.ext_of_wf {m m' : Memory} (h : m.wf) (h' : m'.wf) (hr : ∀ a, m.read a = m'.read a) : m = m' := by
  have below : ∀ (l : Memory) (x : Nat), (∀ c ∈ l, x < c.1) → l.read x = Memory.unlisted := by
    intro l x
    induction l with
    | nil => intro _; rfl
    | cons c l ih =>
      intro hl
      have hc : c.1 ≠ x := (hl c (by simp)).ne'
      rw [Memory.read_cons, if_neg hc]
      exact ih fun d hd => hl d (by simp [hd])
  induction m generalizing m' with
  | nil =>
    cases m' with
    | nil => rfl
    | cons d m' =>
      have := hr d.1
      rw [Memory.read_nil, Memory.read_cons, if_pos rfl] at this
      exact absurd this.symm (h'.2 d (by simp))
  | cons c m ih =>
    cases m' with
    | nil =>
      have := hr c.1
      rw [Memory.read_nil, Memory.read_cons, if_pos rfl] at this
      exact absurd this (h.2 c (by simp))
    | cons d m' =>
      have hp := List.pairwise_cons.mp h.1
      have hp' := List.pairwise_cons.mp h'.1
      have hkey : c.1 = d.1 := by
        rcases Nat.lt_trichotomy c.1 d.1 with hlt | he | hgt
        · have e := hr c.1
          rw [Memory.read_cons, if_pos rfl, below (d :: m') c.1 (fun x hx => by
            rcases List.mem_cons.mp hx with rfl | hx
            · exact hlt
            · exact lt_trans hlt (hp'.1 x hx))] at e
          exact absurd e (h.2 c (by simp))
        · exact he
        · have e := hr d.1
          rw [Memory.read_cons (c := d), if_pos rfl, below (c :: m) d.1 (fun x hx => by
            rcases List.mem_cons.mp hx with rfl | hx
            · exact hgt
            · exact lt_trans hgt (hp.1 x hx))] at e
          exact absurd e.symm (h'.2 d (by simp))
      have hval : c.2 = d.2 := by
        have e := hr c.1
        rwa [Memory.read_cons, if_pos rfl, Memory.read_cons, if_pos hkey.symm] at e
      have htail : m = m' := by
        refine ih ⟨hp.2, fun x hx => h.2 x (by simp [hx])⟩ ⟨hp'.2, fun x hx => h'.2 x (by simp [hx])⟩ fun a => ?_
        by_cases ha : a = c.1
        · rw [ha, below m c.1 hp.1, hkey, below m' d.1 hp'.1]
        · have e := hr a
          rwa [Memory.read_cons, Memory.read_cons, if_neg (Ne.symm ha), if_neg (hkey ▸ Ne.symm ha)] at e
      rw [htail, Prod.ext hkey hval]

end Sys2Proof.Machine
end

