-- ==== Sys2Proof/Laws/Permutation.lean ====
section
/-! SUPPORT. Coordinates of lanes, and the step mappings lane by lane. -/

namespace Sys2Proof.Machine

@[simp] theorem colOf_idx (x y : Fin 5) : colOf (idx x y) = x := by
  apply Fin.ext
  simp [colOf, idx]

@[simp] theorem rowOf_idx (x y : Fin 5) : rowOf (idx x y) = y := by
  apply Fin.ext
  simp [rowOf, idx]
  omega

@[simp] theorem idx_colOf_rowOf (i : Fin 25) : idx (colOf i) (rowOf i) = i := by
  apply Fin.ext
  simp [colOf, rowOf, idx]
  omega

/-- Two lane files that agree at every coordinate are equal. -/
theorem lanes_ext {A B : Lanes} (h : ∀ i : Fin 25, A[i] = B[i]) : A = B :=
  Vector.ext fun i hi => h ⟨i, hi⟩

theorem theta_getElem (A : Lanes) (i : Fin 25) : (theta A)[i] = A[i] ^^^ thetaD A (colOf i) := by
  simp [theta]

theorem laneAt_theta (A : Lanes) (x y : Fin 5) : laneAt (theta A) x y = laneAt A x y ^^^ thetaD A x := by
  rw [laneAt, theta_getElem, colOf_idx]
  rfl

theorem chi_getElem (A : Lanes) (i : Fin 25) : (chi A)[i] =
    A[i] ^^^ (~~~(laneAt A (colOf i + 1) (rowOf i)) &&& laneAt A (colOf i + 2) (rowOf i)) := by
  simp [chi]

theorem laneAt_chi (A : Lanes) (x y : Fin 5) :
    laneAt (chi A) x y = laneAt A x y ^^^ (~~~(laneAt A (x + 1) y) &&& laneAt A (x + 2) y) := by
  rw [laneAt, chi_getElem, colOf_idx, rowOf_idx]
  rfl

theorem iota_lane_zero (A : Lanes) (r : BitVec 8) : (iota A r).1[(0 : Fin 25)] = (iotaLane A[(0 : Fin 25)] r).1 := by
  simp [iota]

theorem iota_lane_ne (A : Lanes) (r : BitVec 8) {i : Fin 25} (h : i ≠ 0) : (iota A r).1[i] = A[i] := by
  have : (0 : Nat) ≠ i.val := fun e => h (Fin.ext e.symm)
  simp [iota, this]

/-- A bit of a rotated lane (40_permutation.md R82). -/
theorem rotl64_getLsbD (a : Lane) {r i : Nat} (hr : r ≤ 63) (hi : i < 64) :
    (rotl64 a r).getLsbD i = a.getLsbD ((i + 64 - r) % 64) := by
  rw [rotl64, BitVec.getLsbD_xor, BitVec.getLsbD_shiftLeft, BitVec.getLsbD_ushiftRight]
  by_cases h : i < r
  · simp only [hi, h]
    rw [Nat.mod_eq_of_lt (by omega)]
    simp
    congr 1
    omega
  · rw [show (i + 64 - r) % 64 = i - r by omega, BitVec.getLsbD_of_ge a (64 - r + i) (by omega)]
    simp [hi, h]

/-- The register after one bit position of iota is one advance on. -/
theorem iotaBit_reg (p : Lane × BitVec 8) (j : Nat) : (iotaBit p j).2 = lfsrStep p.2 := rfl

/-- IOTA advances the register seven times, whatever the lane (40_permutation.md R92). -/
theorem iotaLane_reg (a : Lane) (r : BitVec 8) : (iotaLane a r).2 = lfsrAfter r 7 := rfl

theorem iota_reg (A : Lanes) (r : BitVec 8) : (iota A r).2 = lfsrAfter r 7 := rfl

@[simp] theorem lfsrAfter_zero (r : BitVec 8) : lfsrAfter r 0 = r := rfl

theorem lfsrAfter_succ (r : BitVec 8) (k : Nat) : lfsrAfter r (k + 1) = lfsrStep (lfsrAfter r k) :=
  Function.iterate_succ_apply' _ _ _

theorem lfsrAfter_add (r : BitVec 8) (j k : Nat) : lfsrAfter r (j + k) = lfsrAfter (lfsrAfter r j) k := by
  rw [lfsrAfter, Nat.add_comm, Function.iterate_add_apply]
  rfl

/-- The lane and the register after the first `m` bit positions of iota (40_permutation.md R92). -/
theorem iotaBit_foldl (a : Lane) (r : BitVec 8) {m b : Nat} (hb : b < 64) :
    ((List.range m).foldl iotaBit (a, r)).2 = lfsrAfter r m ∧
    ((List.range m).foldl iotaBit (a, r)).1.getLsbD b =
      (a.getLsbD b ^^ (List.range m).any fun j => decide (b = 2 ^ j - 1) && (lfsrAfter r j).getLsbD 0) := by
  have hstep : ∀ r : BitVec 8, (lfsrStep r).getLsbD 1 = r.getLsbD 0 := by decide
  induction m with
  | zero => simp
  | succ m ih =>
    obtain ⟨h2, h1⟩ := ih
    rw [List.range_succ, List.foldl_append, List.foldl_cons, List.foldl_nil, List.any_append]
    refine ⟨by rw [iotaBit_reg, h2, lfsrAfter_succ], ?_⟩
    simp only [iotaBit, List.any_cons, List.any_nil, Bool.or_false]
    rw [hstep, h2]
    have hnew : b = 2 ^ m - 1 →
        ((List.range m).any fun j => decide (b = 2 ^ j - 1) && (lfsrAfter r j).getLsbD 0) = false := by
      intro hbm
      rw [List.any_eq_false]
      intro j hj
      have hlt : 2 ^ j < 2 ^ m := Nat.pow_lt_pow_right (by omega) (List.mem_range.mp hj)
      have : 0 < 2 ^ j := Nat.pos_of_ne_zero (by simp)
      simp
      omega
    have hone (c : Nat) : (1#64 <<< c).getLsbD b = decide (b = c) := by
      rw [BitVec.getLsbD_shiftLeft]
      by_cases e : b = c
      · subst e
        simp [hb]
      · by_cases f : b < c
        · simp [f]
          omega
        · have : (1#64).getLsbD (b - c) = false := by simp [BitVec.getLsbD_one, show b - c ≠ 0 by omega]
          simp only [hb, f]
          simp [this, e]
    split
    · rename_i hl
      rw [BitVec.getLsbD_xor, h1, hone]
      by_cases e : b = 2 ^ m - 1
      · rw [hnew e, hl]
        simp [e]
      · simp [e]
    · rename_i hl
      rw [h1, show (lfsrAfter r m).getLsbD 0 = false by simpa using hl]
      simp

/-- The register after one round (40_permutation.md R94). -/
theorem keccakRound_reg (p : Lanes × BitVec 8) : (keccakRound p).2 = lfsrAfter p.2 7 := rfl

/-- The register after `k` rounds. -/
theorem keccakRound_iterate_reg (k : Nat) (p : Lanes × BitVec 8) :
    (keccakRound^[k] p).2 = lfsrAfter p.2 (7 * k) := by
  induction k with
  | zero => rfl
  | succ k ih =>
    rw [Function.iterate_succ_apply', keccakRound_reg, ih, ← lfsrAfter_add]
    congr 1

/-- One round more at the end. -/
theorem keccakRound_iterate_succ (k : Nat) (p : Lanes × BitVec 8) :
    keccakRound^[k + 1] p = keccakRound (keccakRound^[k] p) := Function.iterate_succ_apply' _ _ _

end Sys2Proof.Machine
end

