-- ==== Sys2Proof/Laws/Step.lean ====
section
/-! SUPPORT. Everything one host access and one step of the machine can do. -/

namespace Sys2Proof.Machine

variable {s t : State}

/-! ### The turns -/

theorem step_idle_list (h : s.turns = []) : step s = engineTurn s := by
  rw [step, nextTurn, h]

theorem step_turn {x : Turn} {ts : List Turn} (h : s.turns = x :: ts) :
    step s = takeTurn x { s with turns := ts } := by
  rw [step, nextTurn, h]

theorem step_engine {ts : List Turn} (h : s.turns = .engine :: ts) :
    step s = engineTurn { s with turns := ts } := step_turn h

theorem step_host {a : Access} {ts : List Turn} (h : s.turns = .host a :: ts) :
    step s = hostAccess a { s with turns := ts } := step_turn h

theorem step_reset {ts : List Turn} (h : s.turns = .reset :: ts) :
    step s = .next { State.reset with turns := ts, reads := s.reads } := step_turn h

theorem State.byHost_eq (s : State) (a : Access) : s.byHost a = hostAccess a s := rfl

theorem State.byEngine_eq (s : State) : s.byEngine = engineTurn s := rfl

theorem State.byReset_eq (s : State) :
    s.byReset = .next { State.reset with turns := s.turns, reads := s.reads } := rfl

/-! ### Runs -/

theorem run_zero (s : State) : s.run 0 = .next s := rfl

theorem run_succ {k : Nat} {u : State} (h : step s = .next u) : s.run (k + 1) = u.run k := by
  have h' : Sys2Proof.core.step s = .next u := h
  simp only [State.run, Host.Core.run]
  rw [h']

theorem run_one {u : State} (h : step s = .next u) : s.run 1 = .next u := run_succ h

/-- A run of at least one step that ends in a next state begins with a step that does. -/
theorem run_succ_next {k : Nat} {u : State} (h : s.run (k + 1) = .next u) :
    ∃ v, step s = .next v ∧ v.run k = .next u := by
  cases hs : step s with
  | next v => exact ⟨v, rfl, by rw [← h, run_succ hs]⟩
  | fault f =>
    have h' : Sys2Proof.core.step s = .fault f := hs
    simp only [State.run, Host.Core.run] at h
    rw [h'] at h
    cases h
  | refused f =>
    have h' : Sys2Proof.core.step s = .refused f := hs
    simp only [State.run, Host.Core.run] at h
    rw [h'] at h
    cases h

/-- A run of `j + k` steps is a run of `j` and then one of `k`. -/
theorem run_add {j k : Nat} {s u : State} (h : s.run j = .next u) : s.run (j + k) = u.run k := by
  induction j generalizing s with
  | zero =>
    rw [next_inj h, Nat.zero_add]
  | succ j ih =>
    obtain ⟨v, hs, hv⟩ := run_succ_next h
    rw [Nat.add_right_comm, run_succ hs]
    exact ih hv

/-! ### Host accesses -/

theorem memRead_legal {off : Offset} {n : Nat} (h : legal off n .read = true) (s : State) :
    memRead off n s = (readValue s off n, s) := by rw [memRead, if_pos h]

theorem memRead_illegal {off : Offset} {n : Nat} (h : legal off n .read = false) (s : State) :
    memRead off n s = (0#64, { s with errAcc := true }) := by
  rw [memRead, if_neg (by simp [h])]
  rfl

theorem memWrite_illegal {off : Offset} {n : Nat} (h : legal off n .write = false) (v : BitVec 64) (s : State) :
    memWrite off n v s = .next { s with errAcc := true } := by
  rw [memWrite, if_neg (by simp [h])]
  rfl

theorem memWrite_blk {off : Offset} {n : Nat} (h : legal off n .write = true) (hr : region off = .blk)
    (v : BitVec 64) (s : State) : memWrite off n v s = writeBlk off n v s := by
  rw [memWrite, if_pos h, if_pos hr]

theorem memWrite_cmd {off : Offset} {n : Nat} (h : legal off n .write = true) (hr : region off ≠ .blk)
    (v : BitVec 64) (s : State) : memWrite off n v s = writeCommand (v.setWidth 32) s := by
  rw [memWrite, if_pos h, if_neg hr]

theorem region_blk {off : Offset} : region off = .blk ↔ off.toNat < 0x088 := by
  rw [region]
  split_ifs <;> simp_all

/-- A legal write outside `BLK` is a 32-bit write to `CMD` (20_memory.md R45 "No other legal write exists"). -/
theorem legal_write_cmd {off : Offset} {n : Nat} (h : legal off n .write = true) (hr : region off ≠ .blk) :
    off = 0x200#10 ∧ n = 4 := by
  rw [legal] at h
  cases hg : region off <;> rw [hg] at h <;> simp_all

/-- A legal access to the stored bytes is one of 1, 2, 4 or 8 bytes, naturally aligned. -/
theorem byteAccess_iff {off : Offset} {n : Nat} :
    byteAccess off n = true ↔ (n = 1 ∨ n = 2 ∨ n = 4 ∨ n = 8) ∧ off.toNat % n = 0 := by
  simp [byteAccess]

theorem legal_blk {off : Offset} (h : off.toNat < 0x088) (n : Nat) (d : Dir) :
    legal off n d = byteAccess off n := by
  rw [legal, region_blk.mpr h]

theorem writeBlk_idle (h : s.phase = .idle) (off : Offset) (n : Nat) (v : BitVec 64) :
    writeBlk off n v s = .next { s with mem := s.mem.writeBytes off.toNat (bytesOf n v) } := by
  rw [writeBlk, s.busy_eq_false.mpr h]
  rfl

theorem writeBlk_busy (h : s.phase ≠ .idle) (off : Offset) (n : Nat) (v : BitVec 64) :
    writeBlk off n v s = .next { s with errBusy := true } := by
  rw [writeBlk, s.busy_eq_true.mpr h]
  rfl

theorem writeCommand_ok {w : Word} {i : Instr} (h : decodeCommand w = .ok i) (s : State) :
    writeCommand w s = exec i s := by rw [writeCommand, h]

theorem writeCommand_illegal {w : Word} (h : ∀ i, decodeCommand w ≠ .ok i) (s : State) :
    writeCommand w s = s.rejectWord := by
  rw [writeCommand]
  cases hd : decodeCommand w with
  | ok i => exact absurd hd (h i)
  | error e => rfl

/-- While busy no write to `CMD` is issued, whatever its word. -/
theorem writeCommand_busy (h : s.phase ≠ .idle) (w : Word) :
    writeCommand w s = .next { s with errBusy := true } := by
  cases hd : decodeCommand w with
  | ok i => rw [writeCommand_ok hd, exec_command_busy (decodeCommand_ok hd).1 h]
  | error e => rw [writeCommand_illegal (by simp [hd]), State.rejectWord_busy h]

/-- Everything one host access can do; it always gives a next state. -/
theorem hostAccess_cases (a : Access) (s : State) :
    (∃ off n, a = .read off n ∧ legal off n .read = true ∧
      hostAccess a s = .next { s with reads := readValue s off n :: s.reads }) ∨
    (∃ off n, a = .read off n ∧ legal off n .read = false ∧
      hostAccess a s = .next { s with errAcc := true, reads := 0#64 :: s.reads }) ∨
    (∃ off n v, a = .write off n v ∧ legal off n .write = false ∧
      hostAccess a s = .next { s with errAcc := true }) ∨
    (∃ off n v, a = .write off n v ∧ legal off n .write = true ∧ s.phase ≠ .idle ∧
      hostAccess a s = .next { s with errBusy := true }) ∨
    (∃ off n v, a = .write off n v ∧ legal off n .write = true ∧ off.toNat < 0x088 ∧ s.phase = .idle ∧
      hostAccess a s = .next { s with mem := s.mem.writeBytes off.toNat (bytesOf n v) }) ∨
    (∃ v, a = .write 0x200#10 4 v ∧ s.phase = .idle ∧ (∀ i, decodeCommand (v.setWidth 32) ≠ .ok i) ∧
      hostAccess a s = .next { s with errCmd := true }) ∨
    (∃ v i, a = .write 0x200#10 4 v ∧ s.phase = .idle ∧ decodeCommand (v.setWidth 32) = .ok i ∧
      isCommand i = true ∧ i.wf = true ∧ hostAccess a s = .next (s.issued i)) := by
  cases a with
  | read off n =>
    cases hl : legal off n .read with
    | true => exact .inl ⟨off, n, rfl, hl, by rw [hostAccess, memRead_legal hl]⟩
    | false => exact .inr (.inl ⟨off, n, rfl, hl, by rw [hostAccess, memRead_illegal hl]⟩)
  | write off n v =>
    cases hl : legal off n .write with
    | false => exact .inr (.inr (.inl ⟨off, n, v, rfl, hl, memWrite_illegal hl v s⟩))
    | true =>
      by_cases hr : region off = .blk
      · by_cases hp : s.phase = .idle
        · exact .inr (.inr (.inr (.inr (.inl ⟨off, n, v, rfl, hl, region_blk.mp hr, hp, by
            rw [hostAccess, memWrite_blk hl hr, writeBlk_idle hp]⟩))))
        · exact .inr (.inr (.inr (.inl ⟨off, n, v, rfl, hl, hp, by
            rw [hostAccess, memWrite_blk hl hr, writeBlk_busy hp]⟩)))
      · obtain ⟨rfl, rfl⟩ := legal_write_cmd hl hr
        by_cases hp : s.phase = .idle
        · by_cases hd : ∃ i, decodeCommand (v.setWidth 32) = .ok i
          · obtain ⟨i, hi⟩ := hd
            obtain ⟨hc, hw⟩ := decodeCommand_ok hi
            exact .inr (.inr (.inr (.inr (.inr (.inr ⟨v, i, rfl, hp, hi, hc, hw, by
              rw [hostAccess, memWrite_cmd hl hr, writeCommand_ok hi, exec_command_idle hc hw hp]⟩)))))
          · have hd : ∀ i, decodeCommand (v.setWidth 32) ≠ .ok i := fun i hi => hd ⟨i, hi⟩
            exact .inr (.inr (.inr (.inr (.inr (.inl ⟨v, rfl, hp, hd, by
              rw [hostAccess, memWrite_cmd hl hr, writeCommand_illegal hd, State.rejectWord_idle hp]⟩)))))
        · exact .inr (.inr (.inr (.inl ⟨_, _, v, rfl, hl, hp, by
            rw [hostAccess, memWrite_cmd hl hr, writeCommand_busy hp]⟩)))

/-- What one step of the machine can be. -/
theorem step_cases (s : State) :
    (s.turns = [] ∧ step s = engineTurn s) ∨
    (∃ ts, s.turns = .engine :: ts ∧ step s = engineTurn { s with turns := ts }) ∨
    (∃ a ts, s.turns = .host a :: ts ∧ step s = hostAccess a { s with turns := ts }) ∨
    (∃ ts, s.turns = .reset :: ts ∧ step s = .next { State.reset with turns := ts, reads := s.reads }) := by
  cases h : s.turns with
  | nil => exact .inl ⟨rfl, step_idle_list h⟩
  | cons x ts =>
    cases x with
    | engine => exact .inr (.inl ⟨ts, rfl, step_engine h⟩)
    | host a => exact .inr (.inr (.inl ⟨a, ts, rfl, step_host h⟩))
    | reset => exact .inr (.inr (.inr ⟨ts, rfl, step_reset h⟩))

/-! ### The stored bytes -/

theorem block_getElem (s : State) {k : Nat} (hk : k < 136) : s.block[k] = s.mem.read k := by
  simp [State.block]

theorem dout_getElem (s : State) {j : Nat} (hj : j < 32) : s.dout[j] = s.mem.read (0x100 + j) := by
  simp [State.dout]

/-- Writing `DOUT` leaves every byte outside it alone. -/
theorem read_writeDout_outside (m : Memory) (d : Digest) {a : Nat} (h : a < 0x100 ∨ 0x120 ≤ a) :
    (m.writeBytes doutBase d.toList).read a = m.read a := by
  apply Memory.read_writeBytes_outside
  simp
  omega

/-- Writing `DOUT` puts the digest there. -/
theorem read_writeDout (m : Memory) (d : Digest) {j : Nat} (hj : j < 32) :
    (m.writeBytes doutBase d.toList).read (0x100 + j) = d[j] := by
  rw [Memory.read_writeBytes, if_pos (by simp; omega)]
  simp [hj]

end Sys2Proof.Machine
end

