-- ==== Sys2Proof/Laws/Run.lean ====
section
/-! SUPPORT. A step of each phase with the sequencer's turn listed, the issue of a command, one round and several
rounds as runs, and the digest after CLR and SQZ. -/

namespace Sys2Proof.Machine

variable {s u t : State} {ts : List Turn}

/-! ### The phases' next states, field by field -/

theorem State.cleared_eq (s : State) : s.cleared =
    { s with lanes := zeroLanes, mem := s.mem.writeBytes doutBase (Vector.replicate 32 0x00#8).toList, phase := .idle } := by
  apply State.ext <;> simp

theorem State.squeezed_eq (s : State) : s.squeezed =
    { s with mem := s.mem.writeBytes doutBase (squeezeOut s.lanes).toList, phase := .idle } := by
  apply State.ext <;> simp

theorem State.xored_eq (s : State) (b : Block) : s.xored b =
    { s with lanes := xorBlock s.lanes (lanes17 b), phase := .theta } := by
  apply State.ext <;> simp

/-- `DOUT` is the same where its bytes are. -/
theorem State.dout_congr (h : ∀ a, 0x100 ≤ a → t.mem.read a = s.mem.read a) : t.dout = s.dout :=
  Vector.ext fun j hj => by rw [dout_getElem _ hj, dout_getElem _ hj, h _ (by omega)]

/-- `BLK` is the same where its bytes are. -/
theorem State.block_congr (h : ∀ a, a < 0x100 → t.mem.read a = s.mem.read a) : t.block = s.block :=
  Vector.ext fun k hk => by rw [block_getElem _ hk, block_getElem _ hk, h _ (by omega)]

theorem State.dout_cleared (s : State) : s.cleared.dout = Vector.replicate 32 0x00#8 :=
  Vector.ext fun j hj => by rw [dout_getElem _ hj, State.cleared_mem, read_writeDout _ _ hj]

theorem State.dout_squeezed (s : State) : s.squeezed.dout = squeezeOut s.lanes :=
  Vector.ext fun j hj => by rw [dout_getElem _ hj, State.squeezed_mem, read_writeDout _ _ hj]

theorem State.cleared_outside (s : State) {a : Nat} (h : a < 0x100 ∨ 0x120 ≤ a) :
    s.cleared.mem.read a = s.mem.read a := by
  rw [State.cleared_mem, read_writeDout_outside _ _ h]

theorem State.squeezed_outside (s : State) {a : Nat} (h : a < 0x100 ∨ 0x120 ≤ a) :
    s.squeezed.mem.read a = s.mem.read a := by
  rw [State.squeezed_mem, read_writeDout_outside _ _ h]

@[simp] theorem State.issued_mem (i : Instr) (s : State) : (s.issued i).mem = s.mem := by cases i <;> rfl

@[simp] theorem State.issued_lanes (i : Instr) (s : State) : (s.issued i).lanes = s.lanes := by cases i <;> rfl

@[simp] theorem State.issued_turns (i : Instr) (s : State) : (s.issued i).turns = s.turns := by cases i <;> rfl

/-- Nothing is stored after reset. -/
theorem State.reset_mem_wf : State.reset.mem.wf := by decide

/-- Two states in which a command works on the same. -/
theorem State.work_iff : s.work = u.work ↔ s.lanes = u.lanes ∧ s.mem = u.mem ∧ s.r = u.r ∧ s.rnd = u.rnd ∧
    s.phase = u.phase ∧ s.pend = u.pend := by
  constructor
  · intro h
    simpa [State.work] using h
  · rintro ⟨h1, h2, h3, h4, h5, h6⟩
    simp [State.work, h1, h2, h3, h4, h5, h6]

/-! ### XOR_BLOCK lane by lane (41_sponge.md R113) -/

theorem xorBlock_rate (A : Lanes) (b : Vector Lane 17) {i : Fin 25} (h : i.val < 17) :
    (xorBlock A b)[i] = A[i] ^^^ b[i.val] := by
  simp [xorBlock, h]

theorem xorBlock_capacity (A : Lanes) (b : Vector Lane 17) {i : Fin 25} (h : 17 ≤ i.val) :
    (xorBlock A b)[i] = A[i] := by
  simp [xorBlock, show ¬ i.val < 17 by omega]

/-! ### A listed turn of the sequencer -/

theorem step_clr (ht : u.turns = .engine :: ts) (h : u.phase = .clr) :
    step u = .next (State.cleared { u with turns := ts }) :=
  (step_engine ht).trans (engineTurn_clr h)

theorem step_xor {b : Block} (ht : u.turns = .engine :: ts) (h : u.phase = .xor)
    (hb : State.xorOperand { u with turns := ts } = .ok b) : step u = .next (State.xored { u with turns := ts } b) :=
  (step_engine ht).trans (engineTurn_xor (s := { u with turns := ts }) h hb)

theorem step_theta (ht : u.turns = .engine :: ts) (h : u.phase = .theta) :
    step u = .next { u with lanes := theta u.lanes, phase := .rhopi, turns := ts } :=
  (step_engine ht).trans (engineTurn_theta h)

theorem step_rhopi (ht : u.turns = .engine :: ts) (h : u.phase = .rhopi) :
    step u = .next { u with lanes := rhoPi u.lanes, phase := .chi, turns := ts } :=
  (step_engine ht).trans (engineTurn_rhopi h)

theorem step_chi (ht : u.turns = .engine :: ts) (h : u.phase = .chi) :
    step u = .next { u with lanes := chi u.lanes, phase := .iota, turns := ts } :=
  (step_engine ht).trans (engineTurn_chi h)

theorem step_iota (ht : u.turns = .engine :: ts) (h : u.phase = .iota) (hr : u.rnd.toNat ≤ 23) :
    step u = .next (State.iotaDone { u with turns := ts }) :=
  (step_engine ht).trans (engineTurn_iota h hr)

theorem step_sqz (ht : u.turns = .engine :: ts) (h : u.phase = .sqz) :
    step u = .next (State.squeezed { u with turns := ts }) :=
  (step_engine ht).trans (engineTurn_sqz h)

/-- The issue of a command whose word is `w`, with the engine idle (42_commands.md R130). -/
theorem step_issue {i : Instr} {w : Word} {v : BitVec 64} (hd : decodeCommand w = .ok i) (hv : v.setWidth 32 = w)
    (ht : s.turns = .host (.write 0x200#10 4 v) :: ts) (h : s.phase = .idle) :
    step s = .next (State.issued { s with turns := ts } i) := by
  rw [step_host ht]
  refine (memWrite_cmd (off := 0x200#10) (n := 4) rfl (by decide) _ _).trans ?_
  rw [hv, writeCommand_ok hd]
  exact exec_command_idle (s := { s with turns := ts }) (decodeCommand_ok hd).1 (decodeCommand_ok hd).2 h

/-! ### Rounds (42_commands.md R146) -/

/-- The last round loop ends the command or squeezes. -/
theorem State.closeRound_last (h : s.rnd = 23#5) :
    s.closeRound = { s with phase := if s.pend.op = opFinal then .sqz else .idle } := by
  by_cases ho : s.pend.op = opFinal
  · rw [State.closeRound_squeeze (by rw [h]; decide) ho, if_pos ho]
  · rw [State.closeRound_end (by rw [h]; decide) ho, if_neg ho]

/-- Four steps of the sequencer are ROUND and the round loop. -/
theorem run_round (ht : u.turns = .engine :: .engine :: .engine :: .engine :: ts) (h : u.phase = .theta)
    (hr : u.rnd.toNat ≤ 23) : u.run 4 = .next (State.closeRound { u with
      lanes := (keccakRound (u.lanes, u.r)).1, r := (keccakRound (u.lanes, u.r)).2, phase := .iota, turns := ts }) := by
  have e2 := step_rhopi (u := { u with
    lanes := theta u.lanes, phase := .rhopi, turns := .engine :: .engine :: .engine :: ts }) rfl rfl
  have e3 := step_chi (u := { u with
    lanes := rhoPi (theta u.lanes), phase := .chi, turns := .engine :: .engine :: ts }) rfl rfl
  have e4 := step_iota (u := { u with
    lanes := chi (rhoPi (theta u.lanes)), phase := .iota, turns := .engine :: ts }) rfl rfl hr
  rw [run_succ (step_theta ht h), run_succ e2, run_succ e3, run_one e4]
  rfl

/-- The rounds before the last, from any round of the 24. -/
theorem run_rounds (k : Nat) : ∀ u : State, u.turns = List.replicate (4 * k) .engine ++ ts → u.phase = .theta →
    u.rnd.toNat + k = 23 → u.run (4 * k) = .next { u with
      lanes := (keccakRound^[k] (u.lanes, u.r)).1, r := (keccakRound^[k] (u.lanes, u.r)).2, rnd := 23#5, turns := ts } := by
  induction k with
  | zero =>
    intro u ht h hr
    have hd : u.rnd = 23#5 := BitVec.eq_of_toNat_eq (by simpa using hr)
    cases u
    simp at hd ht
    subst hd ht
    rfl
  | succ k ih =>
    intro u ht h hr
    have r4 := run_round (ts := List.replicate (4 * k) .engine ++ ts) ht h (by omega)
    rw [State.closeRound_next (by show u.rnd.toNat < 23; omega)] at r4
    have := rnd_succ (s := u) (by omega)
    have e2 := ih { u with
      lanes := (keccakRound (u.lanes, u.r)).1, r := (keccakRound (u.lanes, u.r)).2, rnd := u.rnd + 1#5
      turns := List.replicate (4 * k) .engine ++ ts } rfl h (by show (u.rnd + 1#5).toNat + k = 23; omega)
    rw [show 4 * (k + 1) = 4 + 4 * k by omega, run_add r4]
    cases u
    cases h
    rw [Function.iterate_succ_apply]
    exact e2

/-- KECCAK_F is 23 rounds and one more (40_permutation.md R95). -/
theorem keccakFull_eq (A : Lanes) : keccakFull A = keccakRound (keccakRound^[23] (A, Config.lfsrSeed)) :=
  Function.iterate_succ_apply' _ _ _

end Sys2Proof.Machine
end

