-- ==== Sys2Proof/Laws/Script.lean ====
section
/-! SUPPORT. Runs of the two agents, piece by piece: a segment of a script takes the agents from one condition to
another wherever it stands and whatever the schedule (20_memory.md R49). -/

namespace Sys2Proof.Machine

/-! ### Turns of the sequencer -/

/-- `k` turns of the sequencer, the host doing nothing. -/
def engineTurns : Nat → State → Result
  | 0, s => .next s
  | k + 1, s =>
    match engineTurn s with
    | .next u => engineTurns k u
    | .fault f => .fault f
    | .refused f => .refused f

theorem engineTurns_succ {k : Nat} {s u : State} (h : engineTurn s = .next u) :
    engineTurns (k + 1) s = engineTurns k u := by rw [engineTurns, h]

/-- An idle engine stays as it is. -/
theorem engineTurns_idle {s : State} (h : s.phase = .idle) (k : Nat) : engineTurns k s = .next s := by
  induction k with
  | zero => rfl
  | succ k ih => rw [engineTurns_succ (engineTurn_idle h), ih]

theorem engineTurns_next {k : Nat} {s u : State} (h : engineTurns (k + 1) s = .next u) :
    ∃ v, engineTurn s = .next v ∧ engineTurns k v = .next u := by
  rw [engineTurns] at h
  cases e : engineTurn s with
  | next v => rw [e] at h; exact ⟨v, rfl, h⟩
  | fault f => rw [e] at h; cases h
  | refused f => rw [e] at h; cases h

/-- The sequencer does not look at the turns listed. -/
theorem engineTurn_setTurns {s t : State} (h : engineTurn s = .next t) (ts : List Turn) :
    engineTurn { s with turns := ts } = .next { t with turns := ts } := by
  rcases engineTurn_cases h with ⟨hp, rfl⟩ | ⟨hp, rfl⟩ | ⟨hp, b, hb, rfl⟩ | ⟨hp, rfl⟩ | ⟨hp, rfl⟩ | ⟨hp, rfl⟩ |
    ⟨hp, hr, rfl⟩ | ⟨hp, rfl⟩
  · exact engineTurn_idle (s := { t with turns := ts }) hp
  · rw [engineTurn_clr (s := { s with turns := ts }) hp, State.cleared_eq, State.cleared_eq]
  · rw [engineTurn_xor (s := { s with turns := ts }) (b := b) hp hb, State.xored_eq, State.xored_eq]
  · exact engineTurn_theta (s := { s with turns := ts }) hp
  · exact engineTurn_rhopi (s := { s with turns := ts }) hp
  · exact engineTurn_chi (s := { s with turns := ts }) hp
  · rw [engineTurn_iota (s := { s with turns := ts }) hp hr]
    congr 1
    simp only [State.iotaDone, State.closeRound]
    split_ifs <;> rfl
  · rw [engineTurn_sqz (s := { s with turns := ts }) hp, State.squeezed_eq, State.squeezed_eq]

theorem engineTurns_setTurns {k : Nat} {s t : State} (h : engineTurns k s = .next t) (ts : List Turn) :
    engineTurns k { s with turns := ts } = .next { t with turns := ts } := by
  induction k generalizing s with
  | zero => rw [← next_inj h]; rfl
  | succ k ih =>
    obtain ⟨v, h1, h2⟩ := engineTurns_next h
    rw [engineTurns_succ (engineTurn_setTurns h1 ts)]
    exact ih h2

theorem engineTurn_turns {s t : State} (h : engineTurn s = .next t) : t.turns = s.turns := by
  rcases engineTurn_cases h with ⟨-, rfl⟩ | ⟨-, rfl⟩ | ⟨-, b, -, rfl⟩ | ⟨-, rfl⟩ | ⟨-, rfl⟩ | ⟨-, rfl⟩ |
    ⟨-, -, rfl⟩ | ⟨-, rfl⟩ <;> simp

/-- A run whose listed turns are all the sequencer's. -/
theorem engineTurns_of_run {k : Nat} {s t : State} (ht : s.turns = List.replicate k .engine) (h : s.run k = .next t) :
    engineTurns k s = .next { t with turns := s.turns } := by
  induction k generalizing s with
  | zero => rw [← next_inj h]; rfl
  | succ k ih =>
    obtain ⟨v, h1, h2⟩ := run_succ_next h
    have e := step_engine (ts := List.replicate k .engine) ht
    rw [h1] at e
    have e1 := engineTurn_setTurns e.symm s.turns
    have e2 := engineTurns_setTurns (ih (engineTurn_turns e.symm) h2) s.turns
    exact (engineTurns_succ e1).trans e2

theorem State.issued_setTurns (i : Instr) (s : State) (ts : List Turn) :
    State.issued { s with turns := ts } i = { s.issued i with turns := ts } := by cases i <;> rfl

/-! ### Runs of the pair of agents -/

theorem System.run_cons {a : Agent} {as : List Agent} {y w : System} (h : y.step a = .next w) :
    System.run (a :: as) y = System.run as w := by rw [System.run, h]

theorem System.run_append {as bs : List Agent} {y w : System} (h : System.run as y = .next w) :
    System.run (as ++ bs) y = System.run bs w := by
  induction as generalizing y with
  | nil => cases h; rfl
  | cons a as ih =>
    rw [List.cons_append, System.run]
    rw [System.run] at h
    cases e : y.step a with
    | next v => rw [e] at h; exact ih h
    | fault f => rw [e] at h; cases h
    | refused f => rw [e] at h; cases h

/-- A turn of an idle sequencer changes nothing. -/
theorem System.step_sequencer_idle {y : System} (h : y.engine.phase = .idle) : y.step .sequencer = .next y := by
  rw [System.step, engineTurn_idle h]
  rfl

theorem System.step_sequencer {y : System} {v : State} (h : engineTurn y.engine = .next v) :
    y.step .sequencer = .next { y with engine := v } := by
  rw [System.step, h]
  rfl

/-- A condition on the engine and on the names the host has read. -/
abbrev AgentsPred := State → List (String × BitVec 64) → Prop

/-- A run that has gone from `y` to place `b` of script `S` with `Q`, after which `rest` is left of the schedule. -/
def Arrives (S : List Line) (b : Nat) (Q : AgentsPred) (sched : List Agent) (y : System) : Prop :=
  ∃ as rest w, sched = as ++ rest ∧ System.run as y = .next w ∧ w.host.script = S ∧ w.host.pc = b ∧
    Q w.engine w.host.names

/-- Every run from place `a` with `P` is still before `b`, or has arrived there with `Q`. -/
def Passes (S : List Line) (a b : Nat) (P Q : AgentsPred) : Prop :=
  ∀ (sched : List Agent) (y : System), y.host.script = S → y.host.pc = a → P y.engine y.host.names →
    (∃ z, System.run sched y = .next z ∧ z.host.pc < b) ∨ Arrives S b Q sched y

/-- Some run from place `a` with `P` arrives at `b` with `Q`. -/
def CanReach (S : List Line) (a b : Nat) (P Q : AgentsPred) : Prop :=
  ∀ y : System, y.host.script = S → y.host.pc = a → P y.engine y.host.names →
    ∃ as w, System.run as y = .next w ∧ w.host.script = S ∧ w.host.pc = b ∧ Q w.engine w.host.names

/-- A first step before an arrival. -/
theorem Arrives.cons {S : List Line} {b : Nat} {Q : AgentsPred} {a : Agent} {as : List Agent} {y w : System}
    (h : y.step a = .next w) (hw : (∃ z, System.run as w = .next z ∧ z.host.pc < b) ∨ Arrives S b Q as w) :
    (∃ z, System.run (a :: as) y = .next z ∧ z.host.pc < b) ∨ Arrives S b Q (a :: as) y := by
  rcases hw with ⟨z, hz, hlt⟩ | ⟨as', rest, v, rfl, hr, hv⟩
  · exact .inl ⟨z, (System.run_cons h).trans hz, hlt⟩
  · exact .inr ⟨a :: as', rest, v, rfl, (System.run_cons h).trans hr, hv⟩

theorem Passes.trans {S : List Line} {a b c : Nat} {P Q R : AgentsPred} (hbc : b ≤ c) (h1 : Passes S a b P Q)
    (h2 : Passes S b c Q R) : Passes S a c P R := by
  intro sched y hs hp hP
  rcases h1 sched y hs hp hP with ⟨z, hz, hlt⟩ | ⟨as, rest, w, rfl, hr, hws, hwp, hQ⟩
  · exact .inl ⟨z, hz, by omega⟩
  · rcases h2 rest w hws hwp hQ with ⟨z, hz, hlt⟩ | ⟨as', rest', v, rfl, hr', hv⟩
    · exact .inl ⟨z, (System.run_append hr).trans hz, hlt⟩
    · exact .inr ⟨as ++ as', rest', v, by rw [List.append_assoc], (System.run_append hr).trans hr', hv⟩

theorem CanReach.trans {S : List Line} {a b c : Nat} {P Q R : AgentsPred} (h1 : CanReach S a b P Q)
    (h2 : CanReach S b c Q R) : CanReach S a c P R := by
  intro y hs hp hP
  obtain ⟨as, w, hr, hws, hwp, hQ⟩ := h1 y hs hp hP
  obtain ⟨as', v, hr', hv⟩ := h2 w hws hwp hQ
  exact ⟨as ++ as', v, (System.run_append hr).trans hr', hv⟩

/-- The segment takes the agents from `P` to `Q` wherever its labels are its own. -/
def Segment (seg : List Line) (P Q : AgentsPred) : Prop :=
  ∀ pre post, (∀ l, .label l ∈ seg → .label l ∉ pre) →
    Passes (pre ++ seg ++ post) pre.length (pre.length + seg.length) P Q ∧
    CanReach (pre ++ seg ++ post) pre.length (pre.length + seg.length) P Q

theorem Segment.append {s1 s2 : List Line} {P Q R : AgentsPred} (h1 : Segment s1 P Q) (h2 : Segment s2 Q R)
    (hd : ∀ l, .label l ∈ s2 → .label l ∉ s1) : Segment (s1 ++ s2) P R := by
  intro pre post hl
  have a := h1 pre (s2 ++ post) fun l hl' => hl l (by simp [hl'])
  have b := h2 (pre ++ s1) post fun l hl' => by simp [hl l (by simp [hl']), hd l hl']
  rw [show pre ++ s1 ++ (s2 ++ post) = pre ++ (s1 ++ s2) ++ post by simp] at a
  rw [show pre ++ s1 ++ s2 ++ post = pre ++ (s1 ++ s2) ++ post by simp, List.length_append] at b
  rw [show pre.length + (s1 ++ s2).length = pre.length + s1.length + s2.length by simp; omega]
  exact ⟨a.1.trans (by omega) b.1, a.2.trans b.2⟩

theorem Segment.nil {P Q : AgentsPred} (h : ∀ s n, P s n → Q s n) : Segment [] P Q := fun _ _ _ =>
  ⟨fun sched y hs hp hP => .inr ⟨[], sched, y, rfl, rfl, hs, hp, h _ _ hP⟩,
    fun y hs hp hP => ⟨[], y, rfl, hs, hp, h _ _ hP⟩⟩

/-- One line performed beside an idle engine. -/
theorem Segment.line {x : Line} {P Q : AgentsPred} (hidle : ∀ s n, P s n → s.phase = .idle)
    (hstep : ∀ y : System, y.host.script[y.host.pc]? = some x → P y.engine y.host.names →
      ∃ w, y.hostStep = .next w ∧ w.host.script = y.host.script ∧ w.host.pc = y.host.pc + 1 ∧
        Q w.engine w.host.names) : Segment [x] P Q := by
  intro pre post _
  have key (y : System) (hs : y.host.script = pre ++ [x] ++ post) (hp : y.host.pc = pre.length)
      (hP : P y.engine y.host.names) : ∃ w, y.step .host = .next w ∧ w.host.script = pre ++ [x] ++ post ∧
        w.host.pc = pre.length + [x].length ∧ Q w.engine w.host.names := by
    obtain ⟨w, h1, h2, h3, h4⟩ := hstep y (by rw [hs, hp]; simp) hP
    exact ⟨w, h1, h2.trans hs, by rw [h3, hp]; rfl, h4⟩
  refine ⟨fun sched => ?_, fun y hs hp hP => ?_⟩
  · induction sched with
    | nil => intro y hs hp hP; exact .inl ⟨y, rfl, by rw [hp]; simp⟩
    | cons a sched ih =>
      intro y hs hp hP
      cases a with
      | sequencer => exact Arrives.cons (System.step_sequencer_idle (hidle _ _ hP)) (ih y hs hp hP)
      | host =>
        obtain ⟨w, h1, h2⟩ := key y hs hp hP
        exact .inr ⟨[.host], sched, w, rfl, System.run_cons h1, h2⟩
  · obtain ⟨w, h1, h2⟩ := key y hs hp hP
    exact ⟨[.host], w, System.run_cons h1, h2⟩

/-- A write line beside an idle engine. -/
theorem Segment.wr {w : Width} {off : Offset} {v : BitVec 64} {P Q : AgentsPred}
    (hidle : ∀ s n, P s n → s.phase = .idle)
    (h : ∀ s n, P s n → ∃ t, memWrite off w.bytes v s = .next t ∧ Q t n) : Segment [.wr w off v] P Q := by
  refine Segment.line hidle fun y hx hP => ?_
  obtain ⟨t, ht, hQ⟩ := h _ _ hP
  exact ⟨{ host := y.host.advance, engine := t }, by rw [System.hostStep, hx]; simp only [ht]; rfl, rfl, rfl, hQ⟩

/-- A legal read line beside an idle engine. -/
theorem Segment.rd {w : Width} {off : Offset} {name : String} {P Q : AgentsPred}
    (hidle : ∀ s n, P s n → s.phase = .idle) (hl : legal off w.bytes .read = true)
    (h : ∀ s n, P s n → Q s ((name, readValue s off w.bytes) :: n)) : Segment [.rd w off name] P Q := by
  refine Segment.line hidle fun y hx hP => ?_
  refine ⟨{ host := { y.host.advance with names := (name, (memRead off w.bytes y.engine).1) :: y.host.names }
            engine := (memRead off w.bytes y.engine).2 }, by rw [System.hostStep, hx], rfl, rfl, ?_⟩
  simp only [memRead_legal hl]
  exact h _ _ hP

/-! ### A command and its wait (30_encoding.md R68) -/

/-- Bit 0 of a `STATUS` read is `BUSY`. -/
theorem readValue_status_busy (s : State) : (readValue s 0x204#10 4).getLsbD 0 = s.busy := by
  rw [readValue, show region 0x204#10 = .status by decide]
  simp only [State.status]
  cases s.busy <;> cases s.errAcc <;> cases s.errBusy <;> cases s.errCmd <;> decide

/-- The lines of a command and its wait, in a script. -/
theorem getElem?_commandWait {pre post S : List Line} {c : Line} {l : String}
    (h : S = pre ++ ([c] ++ waitLines l) ++ post) :
    S[pre.length]? = some c ∧ S[pre.length + 1]? = some (.label l) ∧
      S[pre.length + 2]? = some (.rd .w32 0x204#10 "s") ∧ S[pre.length + 3]? = some (.ifGoto "s" 0 true l) := by
  subst h
  simp [waitLines]

/-- Where the label of a wait is. -/
theorem place_commandWait {pre post : List Line} {c : Line} {l : String} {h : HostAgent}
    (hs : h.script = pre ++ ([c] ++ waitLines l) ++ post) (hpre : .label l ∉ pre) (hc : c ≠ .label l) :
    h.place l = pre.length + 1 := by
  have hpre : List.findIdx (fun x => x == Line.label l) pre = pre.length :=
    List.findIdx_eq_length_of_false fun x hx => by
      simp only [beq_eq_false_iff_ne]
      rintro rfl
      exact hpre hx
  have hne : (c == Line.label l) = false := by simpa using hc
  rw [HostAgent.place, hs]
  simp [List.findIdx_append, hpre, List.findIdx_cons, waitLines, hne]
  omega

/-- A command written beside an idle engine, and the poll that follows it: if the command takes the engine to the idle
state `u` in some number of turns, the poll ends with the engine at `u`, under every schedule. -/
theorem Segment.command {w : Width} {off : Offset} {v : BitVec 64} {l : String} {P Q : AgentsPred}
    (hidle : ∀ s n, P s n → s.phase = .idle)
    (h : ∀ s n, P s n → ∃ t u k, memWrite off w.bytes v s = .next t ∧ engineTurns k t = .next u ∧ u.phase = .idle ∧
      ∀ b, Q u (("s", b) :: n) ∧ ∀ m, Q u m → Q u (("s", b) :: m)) :
    Segment ([.wr w off v] ++ waitLines l) P Q := by
  intro pre post hlab
  have hl : legal 0x204#10 4 .read = true := by decide
  obtain ⟨l0, l1, l2, l3⟩ := getElem?_commandWait (pre := pre) (post := post) (c := .wr w off v) (l := l) rfl
  have hplace (h : HostAgent) (hs : h.script = pre ++ ([.wr w off v] ++ waitLines l) ++ post) :=
    place_commandWait hs (hlab l (by simp [waitLines])) nofun
  generalize pre ++ ([Line.wr w off v] ++ waitLines l) ++ post = S at *
  -- the host's four steps
  have st0 (y : System) (hs : y.host.script = S) (hp : y.host.pc = pre.length) (t : State)
      (ht : memWrite off w.bytes v y.engine = .next t) :
      y.step .host = .next { host := { y.host with pc := pre.length + 1 }, engine := t } := by
    rw [System.step, System.hostStep, hs, hp, l0]
    simp only [ht]
    rw [← hp]
    rfl
  have st1 (y : System) (hs : y.host.script = S) (hp : y.host.pc = pre.length + 1) :
      y.step .host = .next { y with host := { y.host with pc := pre.length + 2 } } := by
    rw [System.step, System.hostStep, hs, hp, l1]
    simp only [HostAgent.advance, hp]
  have st2 (y : System) (hs : y.host.script = S) (hp : y.host.pc = pre.length + 2) :
      y.step .host = .next { y with host := { y.host with
        pc := pre.length + 3, names := ("s", readValue y.engine 0x204#10 4) :: y.host.names } } := by
    rw [System.step, System.hostStep, hs, hp, l2]
    simp only [show Width.w32.bytes = 4 from rfl, memRead_legal hl, HostAgent.advance, hp]
  have st3 (y : System) (hs : y.host.script = S) (hp : y.host.pc = pre.length + 3) :
      y.step .host = .next { y with host := { y.host with
        pc := if (y.host.value "s").getLsbD 0 = true then pre.length + 1 else pre.length + 4 } } := by
    rw [System.step, System.hostStep, hs, hp, l3]
    simp only [hplace _ hs, HostAgent.advance, hp]
    split_ifs <;> rfl
  rw [show pre.length + ([Line.wr w off v] ++ waitLines l).length = pre.length + 4 by simp [waitLines]]
  refine ⟨fun sched => ?_, fun y hs hp hP => ?_⟩
  · -- inside the poll the engine is on its way to `u`, and a poll that saw it idle saw it at `u`
    have inside (u : State) (n : List (String × BitVec 64)) (hu : u.phase = .idle)
        (hQ : ∀ b, Q u (("s", b) :: n) ∧ ∀ m, Q u m → Q u (("s", b) :: m)) (sched : List Agent) :
        ∀ y : System, y.host.script = S → (∃ k, engineTurns k y.engine = .next u) →
          (y.host.pc = pre.length + 1 ∧ (y.host.names = n ∨ Q u y.host.names) ∨
            y.host.pc = pre.length + 2 ∧ (y.host.names = n ∨ Q u y.host.names) ∨
            y.host.pc = pre.length + 3 ∧ Q u y.host.names ∧ ((y.host.value "s").getLsbD 0 = false → y.engine = u)) →
          (∃ z, System.run sched y = .next z ∧ z.host.pc < pre.length + 4) ∨
            Arrives S (pre.length + 4) Q sched y := by
      induction sched with
      | nil => intro y hs _ hpc; exact .inl ⟨y, rfl, by rcases hpc with h | h | h <;> have := h.1 <;> omega⟩
      | cons a sched ih =>
        intro y hs hk hpc
        obtain ⟨k, hk⟩ := hk
        cases a with
        | sequencer =>
          have hv : ∃ v, engineTurn y.engine = .next v ∧ (∃ k, engineTurns k v = .next u) ∧ (y.engine = u → v = u) := by
            cases k with
            | zero => exact ⟨y.engine, engineTurn_idle (by rw [next_inj hk]; exact hu), ⟨0, hk⟩, id⟩
            | succ k =>
              obtain ⟨v, h1, h2⟩ := engineTurns_next hk
              refine ⟨v, h1, ⟨k, h2⟩, fun h => ?_⟩
              rw [h, engineTurn_idle hu] at h1
              exact (next_inj h1).symm
          obtain ⟨v, h1, h2, h3⟩ := hv
          refine Arrives.cons (System.step_sequencer h1) (ih _ hs h2 ?_)
          rcases hpc with h | h | h
          · exact .inl h
          · exact .inr (.inl h)
          · exact .inr (.inr ⟨h.1, h.2.1, fun hb => h3 (h.2.2 hb)⟩)
        | host =>
          rcases hpc with ⟨hp, hn⟩ | ⟨hp, hn⟩ | ⟨hp, hn, hb⟩
          · exact Arrives.cons (st1 y hs hp) (ih _ hs ⟨k, hk⟩ (.inr (.inl ⟨rfl, hn⟩)))
          · refine Arrives.cons (st2 y hs hp) (ih _ hs ⟨k, hk⟩ (.inr (.inr ⟨rfl, ?_, fun hbit => ?_⟩)))
            · rcases hn with hn | hn
              · dsimp only
                rw [hn]
                exact (hQ _).1
              · exact (hQ _).2 _ hn
            · have : (readValue y.engine 0x204#10 4).getLsbD 0 = false := by simpa [HostAgent.value] using hbit
              rw [readValue_status_busy, State.busy_eq_false] at this
              rw [engineTurns_idle this] at hk
              exact next_inj hk
          · have e := st3 y hs hp
            by_cases hbit : (y.host.value "s").getLsbD 0 = true
            · rw [if_pos hbit] at e
              exact Arrives.cons e (ih _ hs ⟨k, hk⟩ (.inl ⟨rfl, .inr hn⟩))
            · rw [if_neg hbit] at e
              refine .inr ⟨[.host], sched, _, rfl, System.run_cons e, hs, rfl, ?_⟩
              dsimp only
              rw [hb (by simpa using hbit)]
              exact hn
    induction sched with
    | nil => intro y hs hp hP; exact .inl ⟨y, rfl, by omega⟩
    | cons a sched ih =>
      intro y hs hp hP
      cases a with
      | sequencer => exact Arrives.cons (System.step_sequencer_idle (hidle _ _ hP)) (ih y hs hp hP)
      | host =>
        obtain ⟨t, u, k, ht, hk, hu, hQ⟩ := h _ _ hP
        exact Arrives.cons (st0 y hs hp t ht) (inside u y.host.names hu hQ sched
          { host := { y.host with pc := pre.length + 1 }, engine := t } hs ⟨k, hk⟩ (.inl ⟨rfl, .inl rfl⟩))
  · -- the host writes the command, the sequencer takes its turns, and the first poll sees the engine idle
    obtain ⟨t, u, k, ht, hk, hu, hQ⟩ := h _ _ hP
    have turns (k : Nat) : ∀ y : System, engineTurns k y.engine = .next u →
        System.run (List.replicate k .sequencer) y = .next { y with engine := u } := by
      induction k with
      | zero => intro y hk; rw [← next_inj hk]; rfl
      | succ k ih =>
        intro y hk
        obtain ⟨v, h1, h2⟩ := engineTurns_next hk
        rw [List.replicate_succ, System.run_cons (System.step_sequencer h1), ih _ h2]
    have e0 := st0 y hs hp t ht
    have e1 := turns k { host := { y.host with pc := pre.length + 1 }, engine := t } hk
    have e2 := st1 { host := { y.host with pc := pre.length + 1 }, engine := u } hs rfl
    have e3 := st2 { host := { y.host with pc := pre.length + 2 }, engine := u } hs rfl
    have e4 := st3 { host := { y.host with
      pc := pre.length + 3, names := ("s", readValue u 0x204#10 4) :: y.host.names }, engine := u } hs rfl
    have hbit : (readValue u 0x204#10 4).getLsbD 0 = false := by rw [readValue_status_busy, State.busy_eq_false]; exact hu
    rw [if_neg (by simpa [HostAgent.value] using hbit)] at e4
    exact ⟨.host :: (List.replicate k .sequencer ++ [.host, .host, .host]), { host := { y.host with
      pc := pre.length + 4, names := ("s", readValue u 0x204#10 4) :: y.host.names }, engine := u },
      (System.run_cons e0).trans ((System.run_append e1).trans ((System.run_cons e2).trans
        ((System.run_cons e3).trans (System.run_cons e4)))),
      hs, rfl, (hQ _).1⟩

end Sys2Proof.Machine
end

