-- ==== Sys2Proof/Tests/Slice0.lean ====
section
/-! SUPPORT. Tests on one step or one word each, their expected values from the spec's tables (95_test_vectors.md
unless another file is named), and for every statement with hypotheses a state and operands that meet them. -/

open Sys2Proof Sys2Proof.Machine

namespace Sys2Proof.Tests

/-! ## Helpers -/

/-- An outcome is a next state with a property. -/
def nextIs (r : Result) (p : State → Bool) : Bool :=
  match r with
  | .next t => p t
  | .fault _ => false
  | .refused _ => false

/-- The state after reset but for the phase and the lanes. -/
def inPhase (p : Phase) (A : Lanes) : State := { State.reset with phase := p, lanes := A }

/-- A command in flight: its operation, `N`, phase, round and register. -/
def inFlight (op : BitVec 4) (n : BitVec 8) (p : Phase) (rnd : BitVec 5) (r : BitVec 8) : State :=
  { State.reset with pend := { op := op, n := n }, phase := p, rnd := rnd, r := r }

/-- Zero lanes but for lane `i`. -/
def oneLane (i : Fin 25) (v : Lane) : Lanes := zeroLanes.set i v

/-- The first eight bytes of `BLK` are 00 01 .. 07 (MEM-1). -/
def countingBlk : State := { State.reset with mem := [(1, 1), (2, 2), (3, 3), (4, 4), (5, 5), (6, 6), (7, 7)] }

/-- The word a host read returns. -/
def readIs (s : State) (off : Offset) (n : Nat) (v : BitVec 64) : Bool :=
  nextIs (s.byHost (.read off n)) fun t => decide (t.reads = v :: s.reads)

/-! ## Well-formedness and decoding -/

theorem test_final_136_is_ill_formed : (Instr.final 136#8).wf = false := by decide
theorem test_final_255_is_ill_formed : (Instr.final 255#8).wf = false := by decide

/-- ENC-1: the legal words, each written out in its fields `RES1`, `N`, `RES0`, `OP` (R60). -/
theorem test_decode_init : decodeCommand (0x0000#16 ++ 0b00000000#8 ++ 0b0000#4 ++ 0b0001#4) = .ok .init := by decide
theorem test_decode_absorb : decodeCommand (0x0000#16 ++ 0b00000000#8 ++ 0b0000#4 ++ 0b0010#4) = .ok .absorb := by decide
theorem test_decode_final : decodeCommand (0x0000#16 ++ 0b10000111#8 ++ 0b0000#4 ++ 0b0011#4) = .ok (.final 135#8) := by
  decide
theorem test_decode_permute : decodeCommand (0x0000#16 ++ 0b00000000#8 ++ 0b0000#4 ++ 0b0100#4) = .ok .permute := by
  decide
theorem test_decode_squeeze : decodeCommand (0x0000#16 ++ 0b00000000#8 ++ 0b0000#4 ++ 0b0101#4) = .ok .squeeze := by
  decide

/-- The phases, by the table of 30_encoding.md R66. -/
theorem test_decode_phases :
    decode (.phase 0b000#3) = .ok .phaseIdle ∧ decode (.phase 0b001#3) = .ok .phaseClr ∧
    decode (.phase 0b010#3) = .ok .phaseXor ∧ decode (.phase 0b011#3) = .ok .phaseTheta ∧
    decode (.phase 0b100#3) = .ok .phaseRhopi ∧ decode (.phase 0b101#3) = .ok .phaseChi ∧
    decode (.phase 0b110#3) = .ok .phaseIota ∧ decode (.phase 0b111#3) = .ok .phaseSqz := by decide

/-- ENC-1: the illegal words, with the field that makes each illegal. -/
theorem test_decode_illegal :
    decodeCommand 0x00000000#32 = .error .reservedOp ∧ decodeCommand 0x00000006#32 = .error .reservedOp ∧
    decodeCommand 0x0000000F#32 = .error .reservedOp ∧ decodeCommand 0x00000011#32 = .error .nonzeroRes0 ∧
    decodeCommand 0x00000013#32 = .error .nonzeroRes0 ∧ decodeCommand 0x00010001#32 = .error .nonzeroRes1 ∧
    decodeCommand 0x80000001#32 = .error .nonzeroRes1 ∧ decodeCommand 0x00000101#32 = .error .nonzeroN ∧
    decodeCommand 0x00008803#32 = .error .finalLength ∧ decodeCommand 0x0000FF03#32 = .error .finalLength := by decide

/-- The bytes of FINAL 3, lowest address first (R42, R60), and a byte string of another length (R65). -/
theorem test_decode_bytes : decodeBytes [0x03#8, 0x03#8, 0x00#8, 0x00#8] = .ok (.final 3#8) ∧
    decodeBytes [0x03#8, 0x03#8] = .error .badLength := by decide

/-- The host's numbering of the opcode table: 32-bit command rows, 3-bit phase rows given in one byte. -/
theorem test_table_words :
    decodeTableWord 32 0x1 = some .init ∧ decodeTableWord 32 0x8703 = some (.final 135#8) ∧
    decodeTableWord 32 0x8803 = none ∧ decodeTableWord 8 0b011 = some .phaseTheta ∧ decodeTableWord 8 8 = none := by decide

/-- A word placed after reset is the next step's instruction. -/
theorem test_fetch_command : nextIs (step (State.reset.withFetchWord 32 0x8703)) (fun t =>
    decide (t.phase = .xor ∧ t.pend = { op := 0x3#4, n := 0x87#8 } ∧ t.turns = [])) = true := by decide
theorem test_fetch_phase : nextIs (step (State.reset.withFetchWord 8 0b010)) (fun t => decide (t.phase = .theta)) = true := by
  decide

/-! ## The window (MEM-1, MEM-2, MEM-3) -/

theorem test_mem1_write : nextIs (State.reset.byHost (.write 0x000#10 8 0x0706050403020100#64)) (fun t =>
    decide (t.mem = countingBlk.mem)) = true := by decide
theorem test_mem1_reads : readIs countingBlk 0x003#10 1 0x03#64 = true ∧ readIs countingBlk 0x006#10 2 0x0706#64 = true ∧
    readIs countingBlk 0x004#10 4 0x07060504#64 = true := by decide
theorem test_mem1_mixed : readIs { countingBlk with mem := countingBlk.mem.write 5 0xAA#8 } 0x000#10 8
    0x0706AA0403020100#64 = true := by decide
theorem test_mem1_registers : readIs State.reset 0x208#10 4 0x40182088#64 = true ∧
    readIs State.reset 0x200#10 4 0#64 = true := by decide
theorem test_mem2_illegal :
    legal 0x003#10 2 .read = false ∧ legal 0x084#10 8 .read = false ∧ legal 0x100#10 8 .write = false ∧
    legal 0x090#10 1 .read = false ∧ legal 0x204#10 2 .read = false ∧ legal 0x204#10 4 .write = false ∧
    legal 0x208#10 4 .write = false ∧ legal 0x200#10 2 .write = false ∧ legal 0x3FC#10 4 .read = false := by decide
theorem test_mem2_read : nextIs (countingBlk.byHost (.read 0x003#10 2)) (fun t =>
    decide (t = { countingBlk with errAcc := true, reads := [0#64] })) = true := by decide
theorem test_mem3_busy : nextIs ((inPhase .chi zeroLanes).byHost (.write 0x000#10 1 0xFF#64)) (fun t =>
    decide (t.mem = [] ∧ t.errBusy = true)) = true := by decide
theorem test_canonical_write_of_zero : Memory.write [(3, 0x11#8), (5, 0x22#8)] 3 0x00#8 = [(5, 0x22#8)] ∧
    Memory.write [(5, 0x22#8)] 3 0x11#8 = [(3, 0x11#8), (5, 0x22#8)] := by decide

/-- `STATUS` with `BUSY` and `ERR_ACC` set (20_memory.md R44: `ERR_ACC` bit 3, `BUSY` bit 0). -/
theorem test_status_bits : ({ inPhase .sqz zeroLanes with errAcc := true } : State).status = 0x00000009#32 ∧
    ({ State.reset with errCmd := true, errBusy := true } : State).status = 0x00000006#32 := by decide

/-! ## The commands (42_commands.md R130) -/

theorem test_init_clears_flags : nextIs (exec .init { State.reset with errAcc := true }) (fun t =>
    decide (t.errAcc = false ∧ t.phase = .clr ∧ t.pend.op = 0x1#4)) = true := by decide
theorem test_absorb_seeds : nextIs (exec .absorb { State.reset with r := 0x8E#8, rnd := 23#5 }) (fun t =>
    decide (t.r = 0x01#8 ∧ t.rnd = 0#5 ∧ t.phase = .xor)) = true := by decide
theorem test_final_136_sets_err_cmd : nextIs (exec (.final 136#8) State.reset) (fun t =>
    decide (t = { State.reset with errCmd := true })) = true := by decide
theorem test_permute_enters_theta : nextIs (exec .permute State.reset) (fun t => decide (t.phase = .theta)) = true := by
  decide
theorem test_squeeze_keeps_register : nextIs (exec .squeeze { State.reset with r := 0x8E#8 }) (fun t =>
    decide (t.r = 0x8E#8 ∧ t.phase = .sqz)) = true := by decide

/-! ## The phases -/

theorem test_clr : nextIs (exec .phaseClr { inPhase .clr (oneLane 24 5#64) with mem := [(7, 9), (0x100, 9), (0x11F, 9)] })
    (fun t => decide (t.lanes = zeroLanes ∧ t.mem = [(7, 9)] ∧ t.phase = .idle)) = true := by decide +kernel
/-- 41_sponge.md R113's example: the padded empty message on the zero state. -/
theorem test_xor_final_0 : nextIs (exec .phaseXor (inFlight 0x3#4 0#8 .xor 0#5 0x01#8)) (fun t =>
    decide (t.lanes = (oneLane 0 1#64).set 16 0x8000000000000000#64)) = true := by decide +kernel
/-- LANE-1's lane 1, and the capacity left alone. -/
theorem test_xor_absorb : nextIs (exec .phaseXor { inFlight 0x2#4 0#8 .xor 0#5 0x01#8 with
      mem := [(8, 8), (9, 9), (10, 10), (11, 11), (12, 12), (13, 13), (14, 14), (15, 15)], lanes := oneLane 17 7#64 })
    (fun t => decide (t.lanes = (oneLane 1 0x0F0E0D0C0B0A0908#64).set 17 7#64)) = true := by decide +kernel
/-- PADBLOCK-1: `N` = 135 ignores `b[135]`. -/
theorem test_padblock_135 : (padBlock (Vector.replicate 136 0xFF#8) 135)[135] = 0x81#8 ∧
    (padBlock (Vector.replicate 136 0xFF#8) 135)[134] = 0xFF#8 ∧
    (padBlock (Vector.replicate 136 0xFF#8) 0)[134] = 0x00#8 := by decide
/-- THETA-1. -/
theorem test_theta_1 : nextIs (exec .phaseTheta (inPhase .theta (oneLane 0 1#64))) (fun t =>
    decide (t.lanes = #v[1, 1, 0, 0, 2, 0, 1, 0, 0, 2, 0, 1, 0, 0, 2, 0, 1, 0, 0, 2, 0, 1, 0, 0, 2])) = true := by
  decide +kernel
/-- THETA-2: bit 63 wraps to bit 0. -/
theorem test_theta_2 : laneAt (theta (oneLane 12 0x8000000000000000#64)) 1 0 = 1#64 ∧
    laneAt (theta (oneLane 12 0x8000000000000000#64)) 3 4 = 0x8000000000000000#64 := by decide
/-- RHOPI-2, with RHOPI-1's lane in the same state. -/
theorem test_rhopi : nextIs (exec .phaseRhopi (inPhase .rhopi
      (((oneLane 0 0x8000000000000000#64).set 24 0x8000000000000000#64).set 1 1#64))) (fun t =>
    decide (t.lanes = ((oneLane 0 0x8000000000000000#64).set 4 0x2000#64).set 10 2#64)) = true := by decide +kernel
/-- RHOPI-3's check: destination 1 takes source 6 rotated by 44. -/
theorem test_rhopi_44 : (rhoPi (oneLane 6 0x0707070707070707#64))[1] = 0x7070707070707070#64 := by decide
/-- CHI-2. -/
theorem test_chi_2 : nextIs (exec .phaseChi (inPhase .chi
      (((((oneLane 5 0xF0F0F0F0F0F0F0F0#64).set 6 0xFF00FF00FF00FF00#64).set 7 0xAAAAAAAAAAAAAAAA#64).set 8
        0x0123456789ABCDEF#64).set 9 0xFFFFFFFF00000000#64))) (fun t => decide (t.lanes =
      ((((oneLane 5 0xF05AF05AF05AF05A#64).set 6 0xFE01BA45FE01BA45#64).set 7 0x54761032AAAAAAAA#64).set 8
        0x01234567795B3D1F#64).set 9 0xF0FFF0FF0F000F00#64)) = true := by decide +kernel
/-- CHI-1. -/
theorem test_chi_1 : (chi (oneLane 1 0xFFFFFFFFFFFFFFFF#64))[4] = 0xFFFFFFFFFFFFFFFF#64 ∧
    (chi (oneLane 2 0xFFFFFFFFFFFFFFFF#64))[0] = 0xFFFFFFFFFFFFFFFF#64 := by decide
/-- IOTA-1, round 1, and the round loop of R142. -/
theorem test_iota_1 : nextIs (exec .phaseIota (inFlight 0x2#4 0#8 .iota 1#5 0x80#8)) (fun t =>
    decide (t.lanes = oneLane 0 0x8082#64 ∧ t.r = 0xD8#8 ∧ t.rnd = 2#5 ∧ t.phase = .theta)) = true := by decide +kernel
/-- The last round of FINAL goes to SQZ, with `R` = 0x8E (LFSR-3) and `RC[23]`. -/
theorem test_iota_23 : nextIs (exec .phaseIota (inFlight 0x3#4 0#8 .iota 23#5 0x44#8)) (fun t =>
    decide (t.lanes = oneLane 0 0x8000000080008008#64 ∧ t.r = 0x8E#8 ∧ t.rnd = 23#5 ∧ t.phase = .sqz)) = true := by
  decide +kernel
/-- 41_sponge.md R116's example. -/
theorem test_sqz : nextIs (exec .phaseSqz (inPhase .sqz (oneLane 0 0x3C23F7860146D2C5#64))) (fun t =>
    decide (t.mem = [(0x100, 0xC5), (0x101, 0xD2), (0x102, 0x46), (0x103, 0x01), (0x104, 0x86), (0x105, 0xF7),
      (0x106, 0x23), (0x107, 0x3C)] ∧ t.phase = .idle)) = true := by decide +kernel
/-- R144: the state is kept. -/
theorem test_idle : nextIs (exec .phaseIdle countingBlk) (fun t => decide (t = countingBlk)) = true := by decide
/-- LFSR-1 and ROT-1. -/
theorem test_lfsr_1 : lfsrStep 0x40#8 = 0x80#8 ∧ lfsrStep 0x80#8 = 0x71#8 ∧ lfsrStep 0xFF#8 = 0x8F#8 ∧
    lfsrStep 0x8E#8 = 0x6D#8 := by decide
theorem test_rot_1 : rotl64 0x8000000000000001#64 1 = 3#64 ∧ rotl64 1#64 63 = 0x8000000000000000#64 ∧
    rotl64 0x0123456789ABCDEF#64 4 = 0x123456789ABCDEF0#64 ∧
    rotl64 0x0123456789ABCDEF#64 62 = 0xC048D159E26AF37B#64 := by decide
/-- ROUND-1: the first round of the zero state. -/
theorem test_round_1 : (keccakRound (zeroLanes, 0x01#8)).1 = oneLane 0 1#64 ∧ (keccakRound (zeroLanes, 0x01#8)).2 = 0x80#8 := by
  decide +kernel
/-- PAD-4, PAD-5. -/
theorem test_pad : (pad (List.replicate 135 0x00#8)).getD 135 0x00#8 = 0x81#8 ∧
    (pad (List.replicate 136 0x00#8)).length = 272 ∧ (pad (List.replicate 136 0x00#8)).getD 136 0x00#8 = 0x01#8 ∧
    (pad (List.replicate 136 0x00#8)).getD 271 0x00#8 = 0x80#8 := by decide +kernel
/-- A script's `blk` of 9 bytes: one lane and one byte (30_encoding.md R68). -/
theorem test_blk_lines : blkLines [1, 2, 3, 4, 5, 6, 7, 8, 9] =
    [.wr .w64 0x000#10 0x0807060504030201#64, .wr .w8 0x008#10 9#64] := by decide

/-! ## Witnesses

For every statement of Obligations.lean with hypotheses, concrete states and operands that meet them all together, at
the ends of the ranges they allow. A statement not named here has none. -/

/-- ABSORB in flight at XOR, THETA and the ends of the round loop, and FINAL at SQZ. -/
theorem test_witness_invariant_xor : (inFlight 0x2#4 0#8 .xor 0#5 0x01#8).Inv := by constructor <;> decide
theorem test_witness_invariant_final_xor : (inFlight 0x3#4 135#8 .xor 0#5 0x01#8).Inv := by constructor <;> decide
theorem test_witness_invariant_theta : (inFlight 0x4#4 0#8 .theta 0#5 0x01#8).Inv := by constructor <;> decide
theorem test_witness_invariant_iota_0 : (inFlight 0x4#4 0#8 .iota 0#5 0x01#8).Inv := by constructor <;> decide
theorem test_witness_invariant_iota_23 : (inFlight 0x3#4 135#8 .iota 23#5 0x44#8).Inv := by constructor <;> decide +kernel
theorem test_witness_invariant_sqz : (inFlight 0x5#4 0#8 .sqz 0#5 0x01#8).Inv := by constructor <;> decide
theorem test_witness_invariant_idle : ({ State.reset with mem := [(0, 1), (135, 1), (0x100, 1), (0x11F, 1)] } : State).Inv := by
  constructor <;> decide

/-- DecodeOfEncodeIsTheInstruction: FINAL at both ends of its operand. -/
theorem test_witness_decode_encode : (Instr.final 0#8).wf = true ∧ (Instr.final 135#8).wf = true := by decide
/-- EveryCodeHasOneMeaning: a command word and a phase code that decode. -/
theorem test_witness_one_meaning : decode (.command 0x00008703#32) = .ok (.final 135#8) ∧
    decode (.phase 0b111#3) = .ok .phaseSqz := by decide
/-- OpcodeMapAndLegalWords: FINAL's operand at its ends, and the first one past them. -/
theorem test_witness_opcode_map : decodeCommand 0x00000003#32 = .ok (.final 0#8) ∧
    decodeCommand 0x00008703#32 = .ok (.final 135#8) ∧ ∀ i, decodeCommand 0x00008803#32 ≠ .ok i :=
  ⟨by decide, by decide, fun _ h => by rw [show decodeCommand 0x00008803#32 = .error .finalLength by decide] at h; cases h⟩
/-- StepRunsTheDecodedInstruction: each of its clauses. -/
theorem test_witness_step :
    (({ State.reset with turns := [.host (.write 0x200#10 4 0x8703#64)] } : State).turns =
      [.host (.write 0x200#10 4 0x8703#64)] ∧ decodeBytes (bytesOf 4 0x8703#64) = .ok (.final 135#8)) ∧
    (({ inPhase .chi zeroLanes with turns := [.engine] } : State).turns = [.engine] ∧
      decode (.phase Phase.chi.code) = .ok .phaseChi) ∧
    ((inPhase .sqz zeroLanes).turns = [] ∧ decode (.phase Phase.sqz.code) = .ok .phaseSqz) := by decide
/-- LegalAccesses, StoredBytesReadLittleEndian and BlkWriteStoresItsBytes: the last bytes of each region. -/
theorem test_witness_legal_access : legal 0x080#10 8 .write = true ∧ legal 0x087#10 1 .read = true ∧
    legal 0x100#10 8 .read = true ∧ legal 0x11F#10 1 .read = true ∧ legal 0x118#10 8 .read = true ∧
    legal 0x088#10 1 .read = false ∧ legal 0x120#10 1 .read = false := by decide
/-- IllegalAccessSetsOnlyErrAcc: a read and a write. -/
theorem test_witness_illegal_access : legal 0x088#10 1 .read = false ∧ legal 0x100#10 8 .write = false := by decide
/-- The statements about an idle engine (InitIsIssued, PermutingCommandsAreIssued, SqueezeIsIssued,
IdlePhaseKeepsTheState, WrittenWordIsThePackedLane, HashProgramUnderEverySchedule), and FINAL's operand at its ends. -/
theorem test_witness_idle : State.reset.phase = .idle ∧ (0#8).toNat ≤ 135 ∧ (135#8).toNat ≤ 135 := by decide
/-- WriteWhileBusySetsOnlyErrBusy, HostCannotDisturbABusyEngine: writes to `BLK` and to `CMD` while busy. -/
theorem test_witness_write_busy : (inPhase .clr zeroLanes).phase ≠ .idle ∧ legal 0x000#10 1 .write = true ∧
    legal 0x200#10 4 .write = true := by decide
/-- IllegalCommandWordSetsOnlyErrCmd: FINAL 136 while idle. -/
theorem test_witness_illegal_word : State.reset.phase = .idle ∧
    ∀ i, decodeCommand ((0x8803#64).setWidth 32) ≠ .ok i :=
  ⟨rfl, fun _ h => by
    rw [show decodeCommand ((0x8803#64).setWidth 32) = .error .finalLength by decide] at h
    cases h⟩
/-- ErrorFlagsAreSticky: a flag set before a step of the sequencer, a reset, and INIT. -/
theorem test_witness_sticky :
    nextIs (step { inPhase .clr zeroLanes with errAcc := true }) (fun t => t.err .acc) = true ∧
    nextIs (step { State.reset with errBusy := true, turns := [.reset] }) (fun t => !t.err .busy) = true ∧
    nextIs (step { State.reset with errCmd := true, turns := [.host (.write 0x200#10 4 1#64)] })
      (fun t => !t.err .cmd) = true := by decide
/-- AtMostOneFlagIsRaised: an illegal command word while busy raises `ERR_BUSY` and not `ERR_CMD` (R164). -/
theorem test_witness_one_flag : (inPhase .clr zeroLanes).err .busy = false ∧
    nextIs ((inPhase .clr zeroLanes).byHost (.write 0x200#10 4 0#64)) (fun t => t.err .busy && !t.err .cmd) = true ∧
    nextIs (inPhase .clr zeroLanes).byEngine (fun _ => true) = true := by decide
/-- ReadsDoNotShowHiddenState: two busy states with different lanes, phases, rounds and registers. -/
theorem test_witness_hidden :
    (inFlight 0x2#4 0#8 .chi 3#5 0xDF#8).mem = ({ inPhase .sqz (oneLane 3 5#64) with r := 0x02#8 } : State).mem ∧
    ((inFlight 0x2#4 0#8 .chi 3#5 0xDF#8).phase = .idle ↔ (inPhase .sqz (oneLane 3 5#64)).phase = .idle) ∧
    readIs (inFlight 0x2#4 0#8 .chi 3#5 0xDF#8) 0x204#10 4 1#64 = true ∧
    readIs { inPhase .sqz (oneLane 3 5#64) with r := 0x02#8 } 0x204#10 4 1#64 = true := by decide
/-- ResetPutsEveryRegister: a reset of a busy engine. -/
theorem test_witness_reset : (inFlight 0x3#4 7#8 .chi 3#5 0xDF#8).byReset = .next State.reset := rfl
/-- CommandsAreTurnedAway: a busy engine, and the operands 136 and 255 while idle. -/
theorem test_witness_turned_away : (inPhase .iota zeroLanes).phase ≠ .idle ∧ State.reset.phase = .idle ∧
    135 < (136#8).toNat ∧ 135 < (255#8).toNat := by decide
/-- ClrPhaseZeroes, ThetaPhase, RhoPiPhaseMovesByTheTable, ChiPhase, SqzPhaseCopiesTheDigest. -/
theorem test_witness_phases : (inPhase .clr zeroLanes).phase = .clr ∧ (inPhase .theta zeroLanes).phase = .theta ∧
    (inPhase .rhopi zeroLanes).phase = .rhopi ∧ (inPhase .chi zeroLanes).phase = .chi ∧
    (inPhase .sqz zeroLanes).phase = .sqz ∧ (⟨1, 6, 44⟩ : RhoRow) ∈ rhoPiTable ∧ (⟨24, 21, 2⟩ : RhoRow) ∈ rhoPiTable := by
  decide
/-- XorPhaseAbsorbsTheBlock, XorPhasePadsTheFinalBlock: ABSORB, FINAL 0 and FINAL 135 at XOR. -/
theorem test_witness_xor : (inFlight 0x2#4 0#8 .xor 0#5 1#8).phase = .xor ∧ (inFlight 0x2#4 0#8 .xor 0#5 1#8).pend.op = 0x2#4 ∧
    (inFlight 0x3#4 0#8 .xor 0#5 1#8).pend.op = 0x3#4 ∧ (inFlight 0x3#4 0#8 .xor 0#5 1#8).pend.n.toNat ≤ 135 ∧
    (inFlight 0x3#4 135#8 .xor 0#5 1#8).pend.n.toNat ≤ 135 := by decide
/-- RhoPiTableIsThePositionMap: the first and the last lane that moves. -/
theorem test_witness_moved : idx 1 0 ≠ 0 ∧ idx 4 4 ≠ 0 := by decide
/-- IotaPhase: rounds 0 and 22, which go on, and round 23, which ends. -/
theorem test_witness_iota : (inFlight 0x2#4 0#8 .iota 0#5 1#8).rnd.toNat < 23 ∧ (inFlight 0x2#4 0#8 .iota 22#5 1#8).rnd.toNat < 23 ∧
    (inFlight 0x2#4 0#8 .iota 23#5 1#8).rnd.toNat = 23 ∧ (inFlight 0x2#4 0#8 .iota 23#5 1#8).phase = .iota := by decide
/-- IotaInjectsTheRoundConstant: the first and the last round. -/
theorem test_witness_round_constant : (inFlight 0x4#4 0#8 .iota 0#5 0x01#8).Inv ∧ (inFlight 0x3#4 135#8 .iota 23#5 0x44#8).Inv :=
  ⟨test_witness_invariant_iota_0, test_witness_invariant_iota_23⟩
/-- PhaseRowsStopWhereTheyHaveNoEffect: each of its clauses. -/
theorem test_witness_stops : State.reset.phase ≠ .clr ∧
    ((inFlight 0x4#4 0#8 .xor 0#5 1#8).pend.op ≠ 0x2#4 ∧ (inFlight 0x4#4 0#8 .xor 0#5 1#8).pend.op ≠ 0x3#4) ∧
    135 < (inFlight 0x3#4 136#8 .xor 0#5 1#8).pend.n.toNat ∧ 23 < (inFlight 0x2#4 0#8 .iota 24#5 1#8).rnd.toNat := by decide
/-- InitNetEffect, AbsorbNetEffect, FinalNetEffect, PermuteNetEffect, SqueezeNetEffect: the command as the next turn,
with another turn after it. -/
theorem test_witness_net_effect (i : Instr) (k : Nat) : State.reset.phase = .idle ∧
    ({ State.reset with turns := commandTurns i k ++ [.engine] } : State).turns = commandTurns i k ++ [.engine] := ⟨rfl, rfl⟩
/-- SoftwarePaddingEqualsFinal: `BLK` empty, and holding the padded empty message. -/
theorem test_witness_software_padding :
    ({ State.reset with mem := [(0, 0x01#8), (135, 0x80#8)] } : State).block = padBlock State.reset.block 0 := by
  apply Vector.ext
  intro i hi
  rw [block_getElem _ hi, padBlock_getElem _ hi (by decide)]
  simp [eq_comm, Memory.unlisted]
theorem test_witness_software_padding_135 :
    ({ State.reset with mem := [(135, 0x81#8)] } : State).block = padBlock State.reset.block 135 := by
  apply Vector.ext
  intro i hi
  rw [block_getElem _ hi, padBlock_getElem _ hi (by decide), block_getElem _ hi]
  by_cases h : i = 135
  · subst h; simp
  · simp [show i < 135 by omega, State.reset, Ne.symm h]
/-- HashByCommandsIsHash: a message of one block and one byte. -/
theorem test_witness_hash : State.reset.phase = .idle ∧
    ({ State.reset with turns := hashTurns (List.replicate 137 0x61#8) } : State).turns = hashTurns (List.replicate 137 0x61#8) :=
  ⟨rfl, rfl⟩
/-- CommandAtomicity: a command with host accesses before each of its phase steps, up to its last step. -/
theorem test_witness_atomicity :
    (inFlight 0x4#4 0#8 .chi 23#5 0x44#8).stepsLeft = 2 ∧
    [Turn.host (.write 0x000#10 1 0xFF#64), .engine, .host (.read 0x204#10 4)].count .engine = 1 ∧
    Turn.reset ∉ [Turn.host (.write 0x000#10 1 0xFF#64), .engine, .host (.read 0x204#10 4)] := by decide
theorem test_witness_atomicity_inv : (inFlight 0x4#4 0#8 .chi 23#5 0x44#8).Inv := by constructor <;> decide +kernel
/-- CommandsTakeTheirSteps: a busy state that meets the invariant, and the issue of each command. -/
theorem test_witness_steps : nextIs (exec .init State.reset) (fun t => t.stepsLeft == 1) = true ∧
    nextIs (exec .absorb State.reset) (fun t => t.stepsLeft == 97) = true ∧
    nextIs (exec (.final 135#8) State.reset) (fun t => t.stepsLeft == 98) = true ∧
    nextIs (exec .permute State.reset) (fun t => t.stepsLeft == 96) = true ∧
    nextIs (exec .squeeze State.reset) (fun t => t.stepsLeft == 1) = true := by decide
/-- EveryStepKeepsTheInvariant: a step from a state that meets it. -/
theorem test_witness_invariant_step : nextIs (step (inFlight 0x3#4 135#8 .xor 0#5 0x01#8)) (fun t => decide (t.phase = .theta)) = true := by
  decide
/-- DoutChangesOnlyInSqzAndClr: a change in SQZ, in CLR and by reset. -/
theorem test_witness_dout :
    nextIs (step (inPhase .sqz (oneLane 0 1#64))) (fun t => decide (t.dout[0] = 1#8)) = true ∧
    nextIs (step { inPhase .clr zeroLanes with mem := [(0x100, 1)] }) (fun t => decide (t.dout[0] = 0#8)) = true ∧
    nextIs (step { State.reset with mem := [(0x100, 1)], turns := [.reset] }) (fun t => decide (t.dout[0] = 0#8)) = true := by
  decide +kernel
/-- BlkChangesOnlyByHostWrites: a change by a host write and by reset. -/
theorem test_witness_blk :
    nextIs (step { State.reset with turns := [.host (.write 0x087#10 1 1#64)] }) (fun t => decide (t.block[135] = 1#8)) = true ∧
    nextIs (step { State.reset with mem := [(0, 1)], turns := [.reset] }) (fun t => decide (t.block[0] = 0#8)) = true := by decide
/-- LanesChangeOnlyInTheirPhases: a change in CLR, in XOR at lane 16, in THETA, RHOPI, CHI and IOTA, and by reset. -/
theorem test_witness_lanes :
    nextIs (step (inPhase .clr (oneLane 24 1#64))) (fun t => decide (t.lanes[24] = 0#64)) = true ∧
    nextIs (step (inFlight 0x3#4 0#8 .xor 0#5 1#8)) (fun t => decide (t.lanes[16] = 0x8000000000000000#64)) = true ∧
    nextIs (step (inPhase .theta (oneLane 0 1#64))) (fun t => decide (t.lanes[24] = 2#64)) = true ∧
    nextIs (step (inPhase .rhopi (oneLane 1 1#64))) (fun t => decide (t.lanes[1] = 0#64)) = true ∧
    nextIs (step (inPhase .chi (oneLane 1 1#64))) (fun t => decide (t.lanes[4] = 1#64)) = true ∧
    nextIs (step (inPhase .iota zeroLanes)) (fun t => decide (t.lanes[0] = 1#64)) = true ∧
    nextIs (step { State.reset with lanes := oneLane 24 1#64, turns := [.reset] }) (fun t => decide (t.lanes[24] = 0#64)) = true := by
  decide +kernel
/-- RotationMovesEveryBit: the ends of its range. -/
theorem test_witness_rotation : 0 ≤ 63 ∧ 63 ≤ 63 ∧ 1 ≤ 63 := by decide
/-- ThetaIsLinear: a state of zero parities and a state of all-ones parities (THETA-3). -/
theorem test_witness_parities : (∀ x, thetaC zeroLanes x = 0#64) ∧
    ∀ x, thetaC (Vector.replicate 25 0xFFFFFFFFFFFFFFFF#64) x = 0xFFFFFFFFFFFFFFFF#64 := by decide
/-- LfsrSequence: the ends of its first range, and a nonzero register. -/
theorem test_witness_lfsr : lfsrAfter 0x01#8 1 ≠ 0x01#8 ∧ lfsrAfter 0x01#8 254 ≠ 0x01#8 ∧ (0x80#8) ≠ 0#8 := by decide +kernel
/-- RegisterAndTableAgree: the first and the last round. -/
theorem test_witness_rounds : 0 < 24 ∧ 23 < 24 := by decide
/-- PaddedLength: the multiple of 136 after a message of 135 bytes; BlocksOfAPaddedMessage: a message of one block and
a buffer that begins with its last bytes, of which there are none. -/
theorem test_witness_padding : 136 % 136 = 0 ∧ (List.replicate 135 0x61#8).length < 136 ∧
    0 < (List.replicate 136 0x61#8).length / 136 ∧ (List.replicate 136 0x61#8).length % 136 = 0 := by decide +kernel

end Sys2Proof.Tests
end

section
/-! PROOFS. What one step of the machine can be, shared by the statements about every step. -/

namespace Sys2Proof.Machine

variable {s t : State}

/-- The sequencer moves in a step where its turn is listed, and where no turn is listed (log entry 1). -/
def State.sequencerMoves (s : State) : Prop := s.turns = [] ∨ ∃ ts, s.turns = .engine :: ts

/-- A step that gives a next state is a move of the sequencer, a host access or a reset. -/
theorem step_next_cases (h : step s = .next t) :
    (s.sequencerMoves ∧ ∃ ts, engineTurn { s with turns := ts } = .next t) ∨
    (∃ a ts, s.turns = .host a :: ts ∧ hostAccess a { s with turns := ts } = .next t) ∨
    (∃ ts, s.turns = .reset :: ts ∧ t = { State.reset with turns := ts, reads := s.reads }) := by
  rcases step_cases s with ⟨hts, he⟩ | ⟨ts, hts, he⟩ | ⟨a, ts, hts, he⟩ | ⟨ts, hts, he⟩ <;> rw [he] at h
  · exact .inl ⟨.inl hts, s.turns, h⟩
  · exact .inl ⟨.inr ⟨ts, hts⟩, ts, h⟩
  · exact .inr (.inl ⟨a, ts, hts, h⟩)
  · exact .inr (.inr ⟨ts, hts, (next_inj h).symm⟩)

/-- A host access gives a value to the host, is refused with one flag raised, stores in `BLK` or issues a command. -/
theorem hostAccess_next_cases {a : Access} (h : hostAccess a s = .next t) :
    (∃ rs, t = { s with reads := rs }) ∨
    (∃ e rs, t = { s.raise e with reads := rs }) ∨
    (∃ off n v, a = .write off n v ∧ legal off n .write = true ∧ off.toNat < 0x088 ∧ s.phase = .idle ∧
      t = { s with mem := s.mem.writeBytes off.toNat (bytesOf n v) }) ∨
    (∃ v i, a = .write 0x200#10 4 v ∧ s.phase = .idle ∧ decodeCommand (v.setWidth 32) = .ok i ∧ t = s.issued i) := by
  rcases hostAccess_cases a s with ⟨_, _, _, _, he⟩ | ⟨_, _, _, _, he⟩ | ⟨_, _, _, _, _, he⟩ |
    ⟨_, _, _, _, _, _, he⟩ | ⟨off, n, v, ha, hl, ho, hp, he⟩ | ⟨_, _, _, _, he⟩ | ⟨v, i, ha, hp, hd, -, -, he⟩ <;>
    rw [he] at h <;> obtain rfl := next_inj h
  · exact .inl ⟨_, rfl⟩
  · exact .inr (.inl ⟨.acc, _, rfl⟩)
  · exact .inr (.inl ⟨.acc, s.reads, rfl⟩)
  · exact .inr (.inl ⟨.busy, s.reads, rfl⟩)
  · exact .inr (.inr (.inl ⟨off, n, v, ha, hl, ho, hp, rfl⟩))
  · exact .inr (.inl ⟨.cmd, s.reads, rfl⟩)
  · exact .inr (.inr (.inr ⟨v, i, ha, hp, hd, rfl⟩))

end Sys2Proof.Machine
end

section
/-! PROOFS. Every step keeps the invariant `State.Inv` (Safety.lean): the issue of a command, a host access, a step
of the sequencer and a reset, in turn. -/

namespace Sys2Proof.Machine

variable {s t : State}

/-! ### The register never becomes 0 (40_permutation.md R91) -/

theorem lfsrStep_ne_zero : ∀ r : BitVec 8, r ≠ 0#8 → lfsrStep r ≠ 0#8 := by decide

theorem lfsrSeed_ne_zero : Config.lfsrSeed ≠ 0#8 := by decide

theorem lfsrAfter_ne_zero {r : BitVec 8} (h : r ≠ 0#8) (k : Nat) : lfsrAfter r k ≠ 0#8 := by
  induction k with
  | zero => exact h
  | succ k ih => rw [lfsrAfter_succ]; exact lfsrStep_ne_zero _ ih

/-! ### The stored bytes -/

theorem storedOffset_iff {a : Nat} : storedOffset a = true ↔ a < 0x088 ∨ 0x100 ≤ a ∧ a < 0x120 := by
  simp [storedOffset]

/-- Writing bytes at stored offsets keeps the stored bytes in `BLK` and `DOUT`. -/
theorem Memory.stored_writeBytes {m : Memory} {a : Nat} {vs : List Byte}
    (hm : ∀ c ∈ m, storedOffset c.1 = true) (ha : ∀ b, a ≤ b → b < a + vs.length → storedOffset b = true) :
    ∀ c ∈ m.writeBytes a vs, storedOffset c.1 = true := fun c hc =>
  (Memory.mem_writeBytes m hc).elim (fun hb => ha c.1 hb.1 hb.2) (hm c)

/-- A write of a digest to `DOUT` stores in `DOUT` only. -/
theorem stored_writeDout {m : Memory} (hm : ∀ c ∈ m, storedOffset c.1 = true) (d : Digest) :
    ∀ c ∈ m.writeBytes doutBase d.toList, storedOffset c.1 = true := by
  refine Memory.stored_writeBytes hm fun b h1 h2 => ?_
  rw [Vector.length_toList] at h2
  change 0x100 ≤ b at h1
  change b < 0x100 + 32 at h2
  exact storedOffset_iff.mpr (by omega)

/-- A legal access to `BLK` ends inside `BLK` (20_memory.md R43). -/
theorem legal_blk_end {off : Offset} {n : Nat} {d : Dir} (hl : legal off n d = true) (ho : off.toNat < 0x088) :
    off.toNat + n ≤ 0x088 := by
  rw [legal_blk ho, byteAccess_iff] at hl
  obtain ⟨rfl | rfl | rfl | rfl, hmod⟩ := hl <;> omega

/-- A legal write to `BLK` stores in `BLK` only. -/
theorem stored_writeBlk {m : Memory} (hm : ∀ c ∈ m, storedOffset c.1 = true) {off : Offset} {n : Nat}
    (hl : legal off n .write = true) (ho : off.toNat < 0x088) (v : BitVec 64) :
    ∀ c ∈ m.writeBytes off.toNat (bytesOf n v), storedOffset c.1 = true := by
  have hend := legal_blk_end hl ho
  refine Memory.stored_writeBytes hm fun b h1 h2 => ?_
  rw [bytesOf_length] at h2
  exact storedOffset_iff.mpr (by omega)

/-! ### Reset and the issue of a command -/

/-- The state after reset meets the invariant (70_reset_and_hazards.md R180). -/
theorem State.inv_reset : State.reset.Inv := by constructor <;> decide

/-- The invariant does not speak of the error flags and the model's own two fields. -/
theorem State.Inv.withFlags (h : s.Inv) (c b a : Bool) (ts : List Turn) (rs : List (BitVec 64)) :
    State.Inv { s with errCmd := c, errBusy := b, errAcc := a, turns := ts, reads := rs } := { h with }

/-- The issue of a command puts `PEND`, and for a permuting command `R` and `RND`, where the command's first phase
needs them (42_commands.md R130). -/
theorem State.Inv.issued (h : s.Inv) {i : Instr} (hi : isCommand i = true) (hw : i.wf = true) : (s.issued i).Inv := by
  cases i with
  | init =>
    exact { h with pendServes := rfl, pendN := by simp [State.issued], regSeeded := nofun, regRound := nofun }
  | absorb =>
    exact { h with
      rndRange := Nat.zero_le _, pendServes := rfl, pendN := by simp [State.issued], regNonzero := lfsrSeed_ne_zero
      regSeeded := fun _ => ⟨rfl, rfl⟩, regRound := nofun }
  | final n =>
    have hn : n.toNat ≤ 135 := by simpa [Instr.wf] using hw
    exact { h with
      rndRange := Nat.zero_le _, pendServes := rfl, pendN := ⟨hn, fun hne => absurd rfl hne⟩
      regNonzero := lfsrSeed_ne_zero, regSeeded := fun _ => ⟨rfl, rfl⟩, regRound := nofun }
  | permute =>
    exact { h with
      rndRange := Nat.zero_le _, pendServes := rfl, pendN := by simp [State.issued], regNonzero := lfsrSeed_ne_zero
      regSeeded := nofun, regRound := fun _ => rfl }
  | squeeze =>
    exact { h with pendServes := rfl, pendN := by simp [State.issued], regSeeded := nofun, regRound := nofun }
  | _ => cases hi

/-! ### Host accesses -/

/-- A write to `BLK` keeps the invariant. -/
theorem State.Inv.blkWritten (h : s.Inv) {off : Offset} {n : Nat} (hl : legal off n .write = true)
    (ho : off.toNat < 0x088) (v : BitVec 64) :
    State.Inv { s with mem := s.mem.writeBytes off.toNat (bytesOf n v) } :=
  { h with
    memWf := Memory.wf_writeBytes _ _ _ h.memWf
    memStored := stored_writeBlk h.memStored hl ho v }

/-- A host access keeps the invariant. -/
theorem State.Inv.hostAccess_next (h : s.Inv) {a : Access} (ht : hostAccess a s = .next t) : t.Inv := by
  rcases hostAccess_next_cases ht with ⟨rs, rfl⟩ | ⟨e, rs, rfl⟩ | ⟨off, n, v, -, hl, ho, -, rfl⟩ |
    ⟨v, i, -, -, hd, rfl⟩
  · exact h.withFlags _ _ _ _ rs
  · cases e <;> exact h.withFlags _ _ _ _ rs
  · exact h.blkWritten hl ho v
  · exact h.issued (decodeCommand_ok hd).1 (decodeCommand_ok hd).2

/-! ### Steps of the sequencer -/

/-- The phases of a round serve the same operations, those that permute. -/
theorem phaseServes_inRound {p : Phase} (hp : inRound p = true) (op : BitVec 4) :
    phaseServes p op = phaseServes .theta op := by
  cases p with
  | theta | rhopi | chi | iota => rfl
  | idle | clr | xor | sqz => cases hp

/-- XOR is followed by a round for what it absorbs (42_commands.md R138). -/
theorem phaseServes_xor_theta {op : BitVec 4} (h : phaseServes .xor op = true) : phaseServes .theta op = true := by
  simp only [phaseServes, Bool.or_eq_true] at h ⊢
  exact .inl h

/-- Every operation that a phase serves is one of the encoding's, so IDLE can follow every phase. -/
theorem phaseServes_idle {p : Phase} {op : BitVec 4} (h : phaseServes p op = true) :
    phaseServes .idle op = true := by
  revert op
  cases p <;> decide

/-- The end of a command: whatever the lanes and the register are, IDLE asks nothing more of `PEND`. -/
theorem State.Inv.toIdle (h : s.Inv) (A : Lanes) {m : Memory} (hwf : m.wf) (hst : ∀ c ∈ m, storedOffset c.1 = true) :
    State.Inv { s with lanes := A, mem := m, phase := .idle } :=
  { h with
    memWf := hwf, memStored := hst, pendServes := phaseServes_idle h.pendServes, regSeeded := nofun, regRound := nofun }

/-- A phase inside a round to the next phase of the same round. -/
theorem State.Inv.withinRound (h : s.Inv) (A : Lanes) {p : Phase} (hs : inRound s.phase = true)
    (hp : inRound p = true) : State.Inv { s with lanes := A, phase := p } :=
  { h with
    pendServes := by
      change phaseServes p s.pend.op = true
      rw [phaseServes_inRound hp, ← phaseServes_inRound hs, h.pendServes]
    regSeeded := fun hx => by subst hx; cases hp
    regRound := fun _ => h.regRound hs }

/-- XOR to the first round: the register stands at the seed (42_commands.md R130). -/
theorem State.Inv.firstRound (h : s.Inv) (hp : s.phase = .xor) (A : Lanes) :
    State.Inv { s with lanes := A, phase := .theta } := by
  obtain ⟨hr, hrnd⟩ := h.regSeeded hp
  have hserves : phaseServes .xor s.pend.op = true := by rw [← hp]; exact h.pendServes
  exact { h with
    pendServes := phaseServes_xor_theta hserves
    regSeeded := nofun
    regRound := fun _ => by
      change s.r = lfsrAfter Config.lfsrSeed (7 * s.rnd.toNat)
      rw [hr, hrnd]
      rfl }

/-- IOTA to the next round, to SQZ or to IDLE: the register has made the seven advances of the round (R92, R142). -/
theorem State.Inv.iotaDone (h : s.Inv) (hp : s.phase = .iota) : s.iotaDone.Inv := by
  have hround : inRound s.phase = true := by rw [hp]; rfl
  have hnz : lfsrAfter s.r 7 ≠ 0#8 := lfsrAfter_ne_zero h.regNonzero 7
  by_cases hlt : s.rnd.toNat < 23
  · have hsucc := rnd_succ hlt
    rw [State.iotaDone_next hlt]
    exact { h with
      rndRange := by change (s.rnd + 1#5).toNat ≤ 23; omega
      pendServes := (phaseServes_inRound hround _).symm.trans h.pendServes
      regNonzero := hnz
      regSeeded := nofun
      regRound := fun _ => by
        change lfsrAfter s.r 7 = lfsrAfter Config.lfsrSeed (7 * (s.rnd + 1#5).toNat)
        rw [hsucc, Nat.mul_succ, lfsrAfter_add, ← h.regRound hround] }
  · by_cases ho : s.pend.op = opFinal
    · rw [State.iotaDone_squeeze hlt ho]
      exact { h with
        pendServes := by change phaseServes .sqz s.pend.op = true; rw [ho]; rfl
        regNonzero := hnz, regSeeded := nofun, regRound := nofun }
    · rw [State.iotaDone_end hlt ho]
      exact { h with
        pendServes := phaseServes_idle h.pendServes
        regNonzero := hnz, regSeeded := nofun, regRound := nofun }

/-- A step of the sequencer keeps the invariant. -/
theorem State.Inv.engineTurn_next (h : s.Inv) (ht : engineTurn s = .next t) : t.Inv := by
  have hround {p : Phase} (hp : s.phase = p) (hr : inRound p = true) : inRound s.phase = true := hp ▸ hr
  rcases engineTurn_cases ht with ⟨-, rfl⟩ | ⟨-, rfl⟩ | ⟨hp, b, -, rfl⟩ | ⟨hp, rfl⟩ | ⟨hp, rfl⟩ | ⟨hp, rfl⟩ |
    ⟨hp, -, rfl⟩ | ⟨-, rfl⟩
  · exact h
  · rw [State.cleared_eq]
    exact h.toIdle _ (Memory.wf_writeBytes _ _ _ h.memWf) (stored_writeDout h.memStored _)
  · rw [State.xored_eq]
    exact h.firstRound hp _
  · exact h.withinRound _ (hround hp rfl) rfl
  · exact h.withinRound _ (hround hp rfl) rfl
  · exact h.withinRound _ (hround hp rfl) rfl
  · exact h.iotaDone hp
  · rw [State.squeezed_eq]
    exact h.toIdle _ (Memory.wf_writeBytes _ _ _ h.memWf) (stored_writeDout h.memStored _)

/-- A step keeps the invariant. -/
theorem State.Inv.step_next (h : s.Inv) (ht : step s = .next t) : t.Inv := by
  have hts (ts : List Turn) : State.Inv { s with turns := ts } := h.withFlags _ _ _ ts _
  rcases step_next_cases ht with ⟨-, ts, he⟩ | ⟨a, ts, -, he⟩ | ⟨ts, -, rfl⟩
  · exact (hts ts).engineTurn_next he
  · exact (hts ts).hostAccess_next he
  · exact State.inv_reset.withFlags _ _ _ _ _

/-- Settles O48: a step of the sequencer, a host access and a reset each keep the invariant. -/
theorem everyStepKeepsTheInvariant : Obligations.EveryStepKeepsTheInvariant :=
  fun _ _ h ht => h.step_next ht

end Sys2Proof.Machine
end

section
/-! PROOFS. The error flags (10_state.md R25; 60_exceptions.md R160, R164): what raises one, what clears one. -/

namespace Sys2Proof.Machine

variable {s t : State}

/-! ### The word of INIT (30_encoding.md R61) -/

/-- A word is of format K with the fields it has, where its reserved fields are 0 (R60, R63). -/
theorem eq_commandWord {w : Word} (h1 : res1Field w = 0#16) (h0 : res0Field w = 0#4) :
    w = commandWord (opField w) (nField w) := by
  have bit1 (j : Nat) (hj : j < 16) : w.getLsbD (16 + j) = false := by
    simpa [res1Field, hj] using congrArg (BitVec.getLsbD · j) h1
  have bit0 (j : Nat) (hj : j < 4) : w.getLsbD (4 + j) = false := by
    simpa [res0Field, hj] using congrArg (BitVec.getLsbD · j) h0
  apply BitVec.eq_of_getLsbD_eq
  intro i hi
  rw [commandWord_getLsbD, opField, nField, BitVec.getLsbD_extractLsb', BitVec.getLsbD_extractLsb']
  by_cases h4 : i < 4
  · simp [h4, show ¬ 8 ≤ i by omega]
  · by_cases h8 : i < 8
    · have := bit0 (i - 4) (by omega)
      rw [show 4 + (i - 4) = i by omega] at this
      simp [h4, this, show ¬ 8 ≤ i by omega]
    · by_cases h16 : i < 16
      · simp [h4, h16, show 8 ≤ i by omega, show i - 8 < 8 by omega, show 8 + (i - 8) = i by omega]
      · have := bit1 (i - 16) (by omega)
        rw [show 16 + (i - 16) = i by omega] at this
        simp [h4, h16, this]

/-- A word that decodes to a command is that command's encoding (R61). -/
theorem encode_of_decodeCommand {w : Word} {i : Instr} (h : decodeCommand w = .ok i) : encode i = .command w := by
  have plain {op : BitVec 4} {j : Instr} (hw : w = commandWord (opField w) (nField w)) (ho : opField w = op)
      (hj : encode j = .command (commandWord op 0#8)) (hd : decodePlain w j = .ok i) : encode i = .command w := by
    rw [decodePlain] at hd
    split at hd
    · rename_i hn
      rw [← Except.ok.inj hd, hj, hw, ho, hn]
    · cases hd
  rw [decodeCommand] at h
  split_ifs at h with h1 h0 hi ha hf hp hq
  all_goals have hw : w = commandWord (opField w) (nField w) := eq_commandWord (by simpa using h1) (by simpa using h0)
  · exact plain hw hi rfl h
  · exact plain hw ha rfl h
  · rw [decodeFinal] at h
    split at h
    · rw [← Except.ok.inj h, encode, ← hf, ← hw]
    · cases h
  · exact plain hw hp rfl h
  · exact plain hw hq rfl h

theorem decodeCommand_eq_init {w : Word} (h : decodeCommand w = .ok .init) : w = 0x00000001#32 :=
  (Code.command.inj (encode_of_decodeCommand h)).symm

/-! ### The flags under the operations of a step -/

/-- The flags are the same where their three bits are. -/
theorem State.err_congr (hc : t.errCmd = s.errCmd) (hb : t.errBusy = s.errBusy) (ha : t.errAcc = s.errAcc)
    (e : ErrFlag) : t.err e = s.err e := by
  cases e
  · exact ha
  · exact hb
  · exact hc

/-- A refused access raises its own flag and no other (60_exceptions.md R160). -/
theorem State.raise_reads_err (s : State) (e e' : ErrFlag) (rs : List (BitVec 64)) :
    State.err { s.raise e with reads := rs } e' = (decide (e' = e) || s.err e') := by
  rw [← State.raise_err]
  exact State.err_congr rfl rfl rfl e'

/-- The issue of a command other than INIT leaves the flags as they are (42_commands.md R130). -/
theorem State.issued_err {i : Instr} (h : i ≠ .init) (s : State) (e : ErrFlag) : (s.issued i).err e = s.err e := by
  cases i with
  | init => exact absurd rfl h
  | _ => exact State.err_congr rfl rfl rfl e

/-- The issue of INIT clears every flag (R130). -/
theorem State.issued_init_err (s : State) (e : ErrFlag) : (s.issued .init).err e = false := by cases e <;> rfl

@[simp] theorem State.iotaDone_errCmd (s : State) : s.iotaDone.errCmd = s.errCmd := State.closeRound_errCmd
@[simp] theorem State.iotaDone_errBusy (s : State) : s.iotaDone.errBusy = s.errBusy := State.closeRound_errBusy
@[simp] theorem State.iotaDone_errAcc (s : State) : s.iotaDone.errAcc = s.errAcc := State.closeRound_errAcc

/-- A step of the sequencer leaves every flag as it was. -/
theorem engineTurn_err (h : engineTurn s = .next t) (e : ErrFlag) : t.err e = s.err e := by
  rcases engineTurn_cases h with ⟨-, rfl⟩ | ⟨-, rfl⟩ | ⟨-, b, -, rfl⟩ | ⟨-, rfl⟩ | ⟨-, rfl⟩ | ⟨-, rfl⟩ |
    ⟨-, -, rfl⟩ | ⟨-, rfl⟩ <;> apply State.err_congr <;> simp

/-- A host access clears no flag unless it issues INIT. -/
theorem hostAccess_err_stays {a : Access} {e : ErrFlag} (h : hostAccess a s = .next t) (he : s.err e = true) :
    t.err e = true ∨ s.phase = .idle ∧ ∃ v, a = .write 0x200#10 4 v ∧ v.setWidth 32 = 0x00000001#32 := by
  rcases hostAccess_next_cases h with ⟨rs, rfl⟩ | ⟨e', rs, rfl⟩ | ⟨off, n, v, -, -, -, -, rfl⟩ |
    ⟨v, i, ha, hp, hd, rfl⟩
  · exact .inl he
  · exact .inl (by rw [State.raise_reads_err, he, Bool.or_true])
  · exact .inl he
  · by_cases hi : i = .init
    · exact .inr ⟨hp, v, ha, decodeCommand_eq_init (hi ▸ hd)⟩
    · exact .inl (by rw [State.issued_err hi, he])

/-- A host access sets one flag at most: there is a flag but for which it sets none (R164). -/
theorem hostAccess_raises_one {a : Access} (h : hostAccess a s = .next t) :
    ∃ e₀, ∀ e, t.err e = true → s.err e = true ∨ e = e₀ := by
  rcases hostAccess_next_cases h with ⟨rs, rfl⟩ | ⟨e₀, rs, rfl⟩ | ⟨off, n, v, -, -, -, -, rfl⟩ |
    ⟨v, i, -, -, -, rfl⟩
  · exact ⟨.acc, fun _ he => .inl he⟩
  · refine ⟨e₀, fun e he => ?_⟩
    rw [State.raise_reads_err, Bool.or_eq_true, decide_eq_true_eq] at he
    exact he.symm
  · exact ⟨.acc, fun _ he => .inl he⟩
  · refine ⟨.acc, fun e he => .inl ?_⟩
    by_cases hi : i = .init
    · rw [hi, State.issued_init_err] at he
      cases he
    · rwa [State.issued_err hi] at he

/-- Settles O15: the sequencer leaves the flags alone, and a host access clears one only by issuing INIT. -/
theorem errorFlagsAreSticky : Obligations.ErrorFlagsAreSticky := by
  intro s t e h he
  rcases step_next_cases h with ⟨-, ts, ht⟩ | ⟨a, ts, hts, ht⟩ | ⟨ts, hts, -⟩
  · exact .inl ((engineTurn_err ht e).trans he)
  · rcases hostAccess_err_stays ht he with hs | ⟨hp, v, rfl, hv⟩
    · exact .inl hs
    · exact .inr (.inr ⟨hp, ts, v, hts, hv⟩)
  · exact .inr (.inl ⟨ts, hts⟩)

/-- Settles O16: both flags are the one flag the access can set, and the sequencer leaves the flags alone. -/
theorem atMostOneFlagIsRaised : Obligations.AtMostOneFlagIsRaised := by
  refine ⟨fun s t a e e' h hs ht hs' ht' => ?_, fun s t e h => engineTurn_err h e⟩
  obtain ⟨e₀, hone⟩ := hostAccess_raises_one h
  have only {f : ErrFlag} (hf : s.err f = false) (hf' : t.err f = true) : f = e₀ :=
    (hone f hf').resolve_left (by simp [hf])
  rw [only hs ht, only hs' ht']

end Sys2Proof.Machine
end

section
/-! PROOFS. What a host read returns (10_state.md R24 to R26; 20_memory.md R44) and on what it depends. -/

namespace Sys2Proof.Machine

variable {s u : State}

theorem flagBit_getLsbD (b : Bool) (i : Nat) : (flagBit b).getLsbD i = (decide (i = 0) && b) := by
  cases b <;> simp [flagBit, BitVec.getLsbD_one]

/-- The bits of `STATUS` (10_state.md R25). -/
theorem State.status_getLsbD (s : State) (i : Nat) : s.status.getLsbD i = true ↔
    i = 0 ∧ s.phase ≠ .idle ∨ i = 1 ∧ s.errCmd = true ∨ i = 2 ∧ s.errBusy = true ∨ i = 3 ∧ s.errAcc = true := by
  rw [← s.busy_eq_true, State.status, BitVec.getLsbD_setWidth]
  simp only [BitVec.getLsbD_append, flagBit_getLsbD]
  match i with
  | 0 | 1 | 2 | 3 => simp
  | i + 4 => simp

/-- `STATUS` shows `BUSY` and the three flags and nothing else. -/
theorem State.status_congr (hc : s.errCmd = u.errCmd) (hb : s.errBusy = u.errBusy) (ha : s.errAcc = u.errAcc)
    (hp : s.phase = .idle ↔ u.phase = .idle) : s.status = u.status := by
  have hbusy : s.busy = u.busy := by simp [State.busy, hp]
  rw [State.status, State.status, hc, hb, ha, hbusy]

/-- A legal read shows the stored bytes and `STATUS` and nothing else (R44). -/
theorem readValue_congr (hm : s.mem = u.mem) (hs : s.status = u.status) (off : Offset) (n : Nat) :
    readValue s off n = readValue u off n := by
  rw [readValue, readValue, hm, hs]

/-- The bus returns to a read the value of `MemRead` (R44, R46). -/
theorem byHost_read_reads {off : Offset} {n : Nat} {t : State} (h : s.byHost (.read off n) = .next t) :
    t.reads = (memRead off n s).1 :: s.reads := (congrArg State.reads (next_inj h)).symm

/-- What `MemRead` returns depends on the stored bytes and `STATUS` alone. -/
theorem memRead_value_congr (hm : s.mem = u.mem) (hs : s.status = u.status) (off : Offset) (n : Nat) :
    (memRead off n s).1 = (memRead off n u).1 := by
  cases hl : legal off n .read with
  | true => rw [memRead_legal hl, memRead_legal hl, readValue_congr hm hs]
  | false => rw [memRead_illegal hl, memRead_illegal hl]

/-- A legal read gives its value to the host and changes nothing else (R44). -/
theorem byHost_read_legal {off : Offset} {n : Nat} (h : legal off n .read = true) (s : State) :
    s.byHost (.read off n) = .next { s with reads := readValue s off n :: s.reads } := by
  rw [State.byHost_eq, hostAccess, memRead_legal h]

/-- Settles O10: the three reads are legal, and their values are `STATUS`, the constant of `CONFIG` and 0. -/
theorem readsOfStatusConfigAndCmd : Obligations.ReadsOfStatusConfigAndCmd := by
  intro s
  refine ⟨⟨s.status.setWidth 64, byHost_read_legal (by decide) s, fun i => ?_⟩,
    byHost_read_legal (by decide) s, byHost_read_legal (by decide) s⟩
  rw [← s.status_getLsbD, BitVec.getLsbD_setWidth, Bool.and_eq_true, decide_eq_true_eq]
  exact ⟨And.right, fun h => ⟨(BitVec.lt_of_getLsbD h).trans (by decide), h⟩⟩

/-- Settles O17: what a read returns depends on the stored bytes and `STATUS` alone, in which the two states agree. -/
theorem readsDoNotShowHiddenState : Obligations.ReadsDoNotShowHiddenState := by
  intro s u s' u' off n hm hc hb ha hp hr hs hu
  rw [byHost_read_reads hs, byHost_read_reads hu, memRead_value_congr hm (State.status_congr hc hb ha hp), hr]

end Sys2Proof.Machine
end

section
/-! PROOFS. Which steps change `DOUT`, `BLK` and the lanes (10_state.md R20 to R23). -/

namespace Sys2Proof.Machine

variable {s t : State}

/-- `DOUT` is the same where the stored bytes are. -/
theorem State.dout_of_mem (h : t.mem = s.mem) : t.dout = s.dout := State.dout_congr fun _ _ => by rw [h]

/-- `BLK` is the same where the stored bytes are. -/
theorem State.block_of_mem (h : t.mem = s.mem) : t.block = s.block := State.block_congr fun _ _ => by rw [h]

/-! ### A step of the sequencer -/

/-- The sequencer stores bytes only in CLR and SQZ. -/
theorem engineTurn_mem (h : engineTurn s = .next t) : t.mem = s.mem ∨ s.phase = .sqz ∨ s.phase = .clr := by
  rcases engineTurn_cases h with ⟨-, rfl⟩ | ⟨hp, -⟩ | ⟨-, b, -, rfl⟩ | ⟨-, rfl⟩ | ⟨-, rfl⟩ | ⟨-, rfl⟩ |
    ⟨-, -, rfl⟩ | ⟨hp, -⟩
  · exact .inl rfl
  · exact .inr (.inr hp)
  · exact .inl (s.xored_mem b)
  · exact .inl rfl
  · exact .inl rfl
  · exact .inl rfl
  · exact .inl s.iotaDone_mem
  · exact .inr (.inl hp)

/-- The sequencer never writes `BLK`: CLR and SQZ write `DOUT` only (42_commands.md R137, R143). -/
theorem engineTurn_block (h : engineTurn s = .next t) : t.block = s.block := by
  rcases engineTurn_mem h with hm | hp | hp
  · exact State.block_of_mem hm
  · rw [engineTurn_sqz hp] at h
    rw [← next_inj h]
    exact State.block_congr fun a ha => s.squeezed_outside (.inl ha)
  · rw [engineTurn_clr hp] at h
    rw [← next_inj h]
    exact State.block_congr fun a ha => s.cleared_outside (.inl ha)

/-- The lanes a phase can change: in XOR not the capacity (41_sponge.md R113), in IOTA only lane 0
(40_permutation.md R92). -/
def phaseWritesLane (p : Phase) (i : Fin 25) : Prop :=
  p = .clr ∨ p = .xor ∧ i.val < 17 ∨ p = .theta ∨ p = .rhopi ∨ p = .chi ∨ p = .iota ∧ i = 0

/-- The sequencer changes a lane only in a phase that writes it. -/
theorem engineTurn_lane (h : engineTurn s = .next t) (i : Fin 25) :
    t.lanes[i] = s.lanes[i] ∨ phaseWritesLane s.phase i := by
  rcases engineTurn_cases h with ⟨-, rfl⟩ | ⟨hp, -⟩ | ⟨hp, b, -, rfl⟩ | ⟨hp, -⟩ | ⟨hp, -⟩ | ⟨hp, -⟩ |
    ⟨hp, -, rfl⟩ | ⟨-, rfl⟩
  · exact .inl rfl
  · exact .inr (.inl hp)
  · by_cases hi : i.val < 17
    · exact .inr (.inr (.inl ⟨hp, hi⟩))
    · exact .inl (by rw [State.xored_lanes, xorBlock_capacity _ _ (by omega)])
  · exact .inr (.inr (.inr (.inl hp)))
  · exact .inr (.inr (.inr (.inr (.inl hp))))
  · exact .inr (.inr (.inr (.inr (.inr (.inl hp)))))
  · by_cases hi : i = 0
    · exact .inr (.inr (.inr (.inr (.inr (.inr ⟨hp, hi⟩)))))
    · exact .inl (by rw [State.iotaDone_lanes, iota_lane_ne _ _ hi])
  · exact .inl (by rw [State.squeezed_lanes])

/-! ### A host access -/

/-- A host access stores bytes only by a legal write to `BLK` while idle (20_memory.md R45). -/
theorem hostAccess_mem {a : Access} (h : hostAccess a s = .next t) :
    t.mem = s.mem ∨ s.phase = .idle ∧ ∃ off n v, a = .write off n v ∧ legal off n .write = true ∧
      off.toNat < 0x088 ∧ t.mem = s.mem.writeBytes off.toNat (bytesOf n v) := by
  rcases hostAccess_next_cases h with ⟨rs, rfl⟩ | ⟨e, rs, rfl⟩ | ⟨off, n, v, ha, hl, ho, hp, rfl⟩ |
    ⟨v, i, -, -, -, rfl⟩
  · exact .inl rfl
  · exact .inl (s.raise_mem e)
  · exact .inr ⟨hp, off, n, v, ha, hl, ho, rfl⟩
  · exact .inl (s.issued_mem i)

/-- The host cannot change `DOUT` (10_state.md R23). -/
theorem hostAccess_dout {a : Access} (h : hostAccess a s = .next t) : t.dout = s.dout := by
  rcases hostAccess_mem h with hm | ⟨-, off, n, v, -, hl, ho, hm⟩
  · exact State.dout_of_mem hm
  · have hend := legal_blk_end hl ho
    refine State.dout_congr fun b hb => ?_
    rw [hm, Memory.read_writeBytes_outside _ _ _ _ (by rw [bytesOf_length]; omega)]

/-- The host cannot change a lane (R20). -/
theorem hostAccess_lanes {a : Access} (h : hostAccess a s = .next t) : t.lanes = s.lanes := by
  rcases hostAccess_next_cases h with ⟨rs, rfl⟩ | ⟨e, rs, rfl⟩ | ⟨off, n, v, -, -, -, -, rfl⟩ | ⟨v, i, -, -, -, rfl⟩
  · rfl
  · exact s.raise_lanes e
  · rfl
  · exact s.issued_lanes i

/-! ### A step of the machine -/

/-- Settles O50: of a step's three kinds only the sequencer's in SQZ or CLR and a reset can change `DOUT`. -/
theorem doutChangesOnlyInSqzAndClr : Obligations.DoutChangesOnlyInSqzAndClr := by
  intro s t h hne
  rcases step_next_cases h with ⟨hmoves, ts, ht⟩ | ⟨a, ts, -, ht⟩ | ⟨ts, hts, -⟩
  · exact .inl ⟨(engineTurn_mem ht).resolve_left fun hm => hne (State.dout_of_mem hm), hmoves⟩
  · exact absurd (hostAccess_dout ht) hne
  · exact .inr ⟨ts, hts⟩

/-- Settles O51: the sequencer never writes `BLK`, and a host access only by a legal write to it while idle. -/
theorem blkChangesOnlyByHostWrites : Obligations.BlkChangesOnlyByHostWrites := by
  intro s t h hne
  rcases step_next_cases h with ⟨-, ts, ht⟩ | ⟨a, ts, hts, ht⟩ | ⟨ts, hts, -⟩
  · exact absurd (engineTurn_block ht) hne
  · rcases hostAccess_mem ht with hm | ⟨hp, off, n, v, rfl, hl, ho, -⟩
    · exact absurd (State.block_of_mem hm) hne
    · exact .inl ⟨hp, ts, off, n, v, hts, hl, Nat.le_of_lt_succ ho⟩
  · exact .inr ⟨ts, hts⟩

/-- Settles O52: the host cannot change a lane, and the sequencer only in a phase that writes it. -/
theorem lanesChangeOnlyInTheirPhases : Obligations.LanesChangeOnlyInTheirPhases := by
  intro s t h i hne
  rcases step_next_cases h with ⟨hmoves, ts, ht⟩ | ⟨a, ts, -, ht⟩ | ⟨ts, hts, -⟩
  · exact .inl ⟨(engineTurn_lane ht i).resolve_left hne, hmoves⟩
  · exact absurd (congrArg (·[i]) (hostAccess_lanes ht)) hne
  · exact .inr ⟨ts, hts⟩

end Sys2Proof.Machine
end

section
/-! PROOFS. Where a phase row stops (42_commands.md section 3; 93_implementation_defined.md V6, V7). -/

namespace Sys2Proof.Machine

variable {s : State}

/-- The row of the phase `PHASE` names is the sequencer's step. -/
theorem exec_toInstr_enabled {p : Phase} (h : s.phase = p) : exec p.toInstr s = engineTurn s := by
  rw [engineTurn, h]

/-- The row of another phase is not enabled. -/
theorem exec_toInstr_disabled {p : Phase} (h : s.phase ≠ p) : exec p.toInstr s = .fault (.phaseNotEnabled p) := by
  cases p <;> exact State.whenPhase_disabled h _

/-- XOR has no block without ABSORB or FINAL in flight (42_commands.md R138). -/
theorem State.xorOperand_other (ha : s.pend.op ≠ opAbsorb) (hf : s.pend.op ≠ opFinal) :
    s.xorOperand = .error .xorWithoutBlockCommand := by
  rw [State.xorOperand, if_neg ha, if_neg hf]

/-- PADBLOCK is not defined over 135 bytes (41_sponge.md R119). -/
theorem State.xorOperand_final_over (hf : s.pend.op = opFinal) (hn : 135 < s.pend.n.toNat) :
    s.xorOperand = .error .padLengthOutOfRange := by
  rw [State.xorOperand, if_neg (by rw [hf]; decide), if_pos hf, if_neg (by omega)]

/-- Settles O36: a row of another phase is not enabled; XOR stops where it has no block, IOTA where `RND` is over
23. -/
theorem phaseRowsStopWhereTheyHaveNoEffect : Obligations.PhaseRowsStopWhereTheyHaveNoEffect := fun _ =>
  ⟨fun _ h => exec_toInstr_disabled h,
    fun h ha hf => (exec_toInstr_enabled h).trans (engineTurn_xor_stop h (State.xorOperand_other ha hf)),
    fun h hf hn => (exec_toInstr_enabled h).trans (engineTurn_xor_stop h (State.xorOperand_final_over hf hn)),
    fun h hr => (exec_toInstr_enabled h).trans (engineTurn_iota_stop h (by omega))⟩

end Sys2Proof.Machine
end

section
/-! PROOFS. Host accesses to the register window (20_memory.md R41 to R46): which are legal, what a read of the
stored bytes returns, what a write to `BLK` stores, and what is turned away. -/

namespace Sys2Proof.Machine

variable {s : State} {off : Offset} {n : Nat}

/-! ### The map and the legal accesses (R41, R43) -/

theorem region_dout : region off = .dout ↔ 0x100 ≤ off.toNat ∧ off.toNat < 0x120 := by
  rw [region]
  split_ifs <;> simp <;> omega

theorem region_cmd : region off = .cmd ↔ 0x200 ≤ off.toNat ∧ off.toNat < 0x204 := by
  rw [region]
  split_ifs <;> simp <;> omega

theorem region_status : region off = .status ↔ 0x204 ≤ off.toNat ∧ off.toNat < 0x208 := by
  rw [region]
  split_ifs <;> simp <;> omega

theorem region_config : region off = .config ↔ 0x208 ≤ off.toNat ∧ off.toNat < 0x20C := by
  rw [region]
  split_ifs <;> simp <;> omega

theorem offset_eq_iff (a : Offset) : off = a ↔ off.toNat = a.toNat := BitVec.toNat_inj.symm

theorem legal_dout (h : region off = .dout) (n : Nat) (d : Dir) :
    legal off n d = (byteAccess off n && decide (d = .read)) := by rw [legal, h]

/-- A naturally aligned access that begins before a multiple of 8 ends there at the latest. -/
theorem byteAccess_end {m : Nat} (h : byteAccess off n = true) (hm : m % 8 = 0) (ho : off.toNat < m) :
    off.toNat + n ≤ m := by
  obtain ⟨rfl | rfl | rfl | rfl, hmod⟩ := byteAccess_iff.mp h <;> omega

/-- The legal accesses, row by row of the window's map (R43). -/
theorem legal_iff {d : Dir} : legal off n d = true ↔
    (region off = .blk ∧ byteAccess off n = true) ∨ (region off = .dout ∧ byteAccess off n = true ∧ d = .read) ∨
      (off = 0x200#10 ∧ n = 4) ∨ (off = 0x204#10 ∧ n = 4 ∧ d = .read) ∨ (off = 0x208#10 ∧ n = 4 ∧ d = .read) := by
  have at_row {a : Offset} {r : Region} (h : region a = r) : off = a ↔ region off = r ∧ off = a :=
    ⟨fun e => ⟨e ▸ h, e⟩, And.right⟩
  rw [at_row (a := 0x200#10) (r := .cmd) (by decide), at_row (a := 0x204#10) (r := .status) (by decide),
    at_row (a := 0x208#10) (r := .config) (by decide), legal]
  cases region off <;> simp [and_assoc]

/-- Settles O7: row by row of the map; alignment keeps a legal access from crossing the end of its region. -/
theorem legalAccesses : Obligations.LegalAccesses := by
  intro off n d
  refine ⟨?_, fun hl ho => ?_, fun hl h1 h2 => ?_⟩
  · rw [legal_iff, region_blk, region_dout, byteAccess_iff]
    simp only [offset_eq_iff, BitVec.toNat_ofNat]
    cases d with
    | read => simp; omega
    | write => simp; omega
  · exact legal_blk_end hl (by omega)
  · rw [legal_dout (region_dout.mpr (by omega)), Bool.and_eq_true] at hl
    exact byteAccess_end hl.1 rfl (by omega)

/-! ### Illegal accesses (R46) and accesses while busy (R45) -/

/-- Settles O8: legality is checked before anything else. -/
theorem illegalAccessSetsOnlyErrAcc : Obligations.IllegalAccessSetsOnlyErrAcc := by
  refine fun s off n v => ⟨fun hl => ?_, fun hl => ?_⟩
  · rw [State.byHost_eq, hostAccess, memRead_illegal hl]
  · rw [State.byHost_eq, hostAccess, memWrite_illegal hl]

/-- A legal write while busy is discarded, whatever its region and its value. -/
theorem memWrite_busy (hp : s.phase ≠ .idle) (hl : legal off n .write = true) (v : BitVec 64) :
    memWrite off n v s = .next { s with errBusy := true } := by
  by_cases hr : region off = .blk
  · rw [memWrite_blk hl hr, writeBlk_busy hp]
  · rw [memWrite_cmd hl hr, writeCommand_busy hp]

/-- Settles O13: both targets of a legal write check `BUSY` first. -/
theorem writeWhileBusySetsOnlyErrBusy : Obligations.WriteWhileBusySetsOnlyErrBusy :=
  fun _ _ _ v hp hl => memWrite_busy hp hl v

/-- Settles O24: a command's meaning makes the busy check and then the check of its encoding. -/
theorem commandsAreTurnedAway : Obligations.CommandsAreTurnedAway := by
  refine fun s => ⟨fun hp i hi => ?_, fun hp n hn => ?_⟩
  · have hcmd : isCommand i = true := by
      rcases hi with rfl | rfl | ⟨n, rfl⟩ | rfl | rfl <;> rfl
    exact exec_command_busy hcmd hp
  · have hwf : (Instr.final n).wf = false := by simpa [Instr.wf] using hn
    rw [exec_command rfl, hwf, State.issueWith_illegal hp]

/-! ### Reads of the stored bytes (R44) -/

/-- The value of a read in `BLK` or `DOUT`. -/
theorem readValue_stored (h : storedOffset off.toNat = true) (s : State) (n : Nat) :
    readValue s off n = leValue n fun k => s.mem.read (off.toNat + k) := by
  rw [readValue]
  rcases storedOffset_iff.mp h with hb | hd
  · rw [region_blk.mpr hb]
  · rw [region_dout.mpr hd]

/-- The bytes of the value of a read in `BLK` or `DOUT` (R42). -/
theorem byteOf_readValue_stored (h : storedOffset off.toNat = true) (hn : n ≤ 8) (s : State) (k : Nat) :
    byteOf (readValue s off n) k = if k < n then s.mem.read (off.toNat + k) else 0x00#8 := by
  rw [readValue_stored h, byteOf_leValue n _ hn]

/-- A naturally aligned read in `BLK` or `DOUT` is legal. -/
theorem legal_read_stored (h : storedOffset off.toNat = true) (ha : byteAccess off n = true) :
    legal off n .read = true := by
  rw [legal_iff, region_blk, region_dout]
  exact (storedOffset_iff.mp h).elim (fun hb => .inl ⟨hb, ha⟩) fun hd => .inr (.inl ⟨hd, ha, rfl⟩)

/-- Settles O9: the value of the read is the little-endian value of the stored bytes. -/
theorem storedBytesReadLittleEndian : Obligations.StoredBytesReadLittleEndian := by
  intro s off n hn hmod ho
  have hstored : storedOffset off.toNat = true := storedOffset_iff.mpr (by omega)
  have hbyte := byteOf_readValue_stored hstored (show n ≤ 8 by omega) s
  refine ⟨_, byHost_read_legal (legal_read_stored hstored (byteAccess_iff.mpr ⟨hn, hmod⟩)) s, fun k hk => ?_,
    fun k hk => ?_⟩
  · rw [hbyte, if_pos hk]
  · rw [hbyte, if_neg (by omega)]

/-! ### Writes to `BLK` (R45) -/

/-- A naturally aligned write in `BLK` while idle stores its bytes. -/
theorem memWrite_blk_idle (hp : s.phase = .idle) (ho : off.toNat < 0x088) (ha : byteAccess off n = true)
    (v : BitVec 64) : memWrite off n v s = .next { s with mem := s.mem.writeBytes off.toNat (bytesOf n v) } := by
  rw [memWrite_blk ((legal_blk ho n .write).trans ha) (region_blk.mpr ho), writeBlk_idle hp]

/-- A read after the bytes of a value were written. -/
theorem read_writeBytesOf (m : Memory) (a n : Nat) (v : BitVec 64) (b : Nat) :
    (m.writeBytes a (bytesOf n v)).read b = if a ≤ b ∧ b < a + n then byteOf v (b - a) else m.read b := by
  rw [Memory.read_writeBytes, bytesOf_length]
  split_ifs with hb
  · exact bytesOf_getD n v (by omega)
  · rfl

/-- Settles O11: the bytes written are the value's, and a read outside them does not see the write. -/
theorem blkWriteStoresItsBytes : Obligations.BlkWriteStoresItsBytes := by
  intro s off n v hp hn hmod ho
  refine ⟨_, memWrite_blk_idle hp (by omega) (byteAccess_iff.mpr ⟨hn, hmod⟩) v, rfl, fun k hk => ?_, fun a ha => ?_⟩
  · rw [read_writeBytesOf, if_pos (by omega), Nat.add_sub_cancel_left]
  · rw [read_writeBytesOf, if_neg (by omega)]

/-- Settles O12: the lanes are compared byte by byte. -/
theorem writtenWordIsThePackedLane : Obligations.WrittenWordIsThePackedLane := by
  intro s i v hp
  have hoff : (BitVec.ofNat 10 (8 * i.val)).toNat = 8 * i.val := by simp; omega
  have hw := memWrite_blk_idle (off := BitVec.ofNat 10 (8 * i.val)) (n := 8) hp (by omega)
    (byteAccess_iff.mpr ⟨by simp, by omega⟩) v
  rw [hoff] at hw
  refine ⟨_, hw, eq_of_byteOf fun k hk => ?_, fun j hj => eq_of_byteOf fun k hk => ?_⟩
  · rw [Fin.getElem_fin, byteOf_lanes17 _ i.isLt hk, block_getElem, read_writeBytesOf, if_pos (by omega),
      Nat.add_sub_cancel_left]
  · have hne : j.val ≠ i.val := fun e => hj (Fin.ext e)
    rw [Fin.getElem_fin, Fin.getElem_fin, byteOf_lanes17 _ j.isLt hk, byteOf_lanes17 _ j.isLt hk, block_getElem,
      block_getElem, read_writeBytesOf, if_neg (by omega)]

/-! ### The instruction a step runs (R65, R66) -/

/-- The four bytes of a 32-bit write give its word back (R42). -/
theorem wordOfBytes_byteOf (v : BitVec 64) :
    wordOfBytes (byteOf v 0) (byteOf v 1) (byteOf v 2) (byteOf v 3) = v.setWidth 32 := by
  rw [wordOfBytes, byteOf, byteOf, byteOf, byteOf, BitVec.extractLsb'_append_extractLsb'_eq_extractLsb' (by simp),
    BitVec.extractLsb'_append_extractLsb'_eq_extractLsb' (by simp),
    BitVec.extractLsb'_append_extractLsb'_eq_extractLsb' (by simp), BitVec.setWidth_eq_extractLsb' (by decide)]

theorem decodeBytes_bytesOf (v : BitVec 64) : decodeBytes (bytesOf 4 v) = decodeCommand (v.setWidth 32) := by
  rw [← wordOfBytes_byteOf]
  rfl

/-- A legal write to `CMD` runs the instruction its word decodes to. -/
theorem memWrite_command {v : BitVec 64} {i : Instr} (h : decodeCommand (v.setWidth 32) = .ok i) (s : State) :
    memWrite 0x200#10 4 v s = exec i s := by
  rw [memWrite_cmd (by decide) (by decide), writeCommand_ok h]

/-- Settles O5: the four bytes of the write are its word, and the code of `PHASE` decodes to its row. -/
theorem stepRunsTheDecodedInstruction : Obligations.StepRunsTheDecodedInstruction := by
  have hphase {s : State} {i : Instr} (h : decode (.phase s.phase.code) = .ok i) : i = s.phase.toInstr := by
    rw [decode_phase_code] at h
    exact (Except.ok.inj h).symm
  refine fun s => ⟨fun ts v i hts hd => ?_, fun ts i hts hd => ?_, fun i hts hd => ?_⟩
  · rw [step_host hts]
    exact memWrite_command ((decodeBytes_bytesOf v).symm.trans hd) _
  · rw [step_engine hts, hphase hd]
    rfl
  · rw [step_idle_list hts, hphase hd]
    rfl

end Sys2Proof.Machine
end

section
/-! PROOFS. A command in flight (42_commands.md R145, R146): each turn of the sequencer brings it one step nearer to
IDLE, and the host accesses between its turns do not change what it does. -/

namespace Sys2Proof.Machine

variable {s t : State}

/-! ### A turn of the sequencer under the invariant -/

/-- The invariant leaves XOR a block to absorb (42_commands.md R138). -/
theorem State.Inv.xorOperand_ok (h : s.Inv) (hp : s.phase = .xor) : ∃ b, s.xorOperand = .ok b := by
  have hserves : s.pend.op = opAbsorb ∨ s.pend.op = opFinal := by simpa [hp, phaseServes] using h.pendServes
  rcases hserves with ha | hf
  · exact ⟨_, State.xorOperand_absorb ha⟩
  · exact ⟨_, State.xorOperand_final hf h.pendN.1⟩

/-- Under the invariant the sequencer's turn gives a next state. -/
theorem State.Inv.engineTurn_completes (h : s.Inv) : ∃ t, engineTurn s = .next t := by
  cases hp : s.phase with
  | idle => exact ⟨_, engineTurn_idle hp⟩
  | clr => exact ⟨_, engineTurn_clr hp⟩
  | xor =>
    obtain ⟨b, hb⟩ := h.xorOperand_ok hp
    exact ⟨_, engineTurn_xor hp hb⟩
  | theta => exact ⟨_, engineTurn_theta hp⟩
  | rhopi => exact ⟨_, engineTurn_rhopi hp⟩
  | chi => exact ⟨_, engineTurn_chi hp⟩
  | iota => exact ⟨_, engineTurn_iota hp h.rndRange⟩
  | sqz => exact ⟨_, engineTurn_sqz hp⟩

/-- The end of a round brings the command one step nearer to IDLE. -/
theorem State.stepsLeft_iotaDone (hp : s.phase = .iota) (hr : s.rnd.toNat ≤ 23) :
    s.iotaDone.stepsLeft + 1 = s.stepsLeft := by
  by_cases hlt : s.rnd.toNat < 23
  · have hsucc := rnd_succ hlt
    rw [State.iotaDone_next hlt]
    simp only [State.stepsLeft, State.squeezesAfter, hp, hsucc]
    omega
  · by_cases ho : s.pend.op = opFinal
    · rw [State.iotaDone_squeeze hlt ho]
      simp only [State.stepsLeft, State.squeezesAfter, hp, ho, if_true]
      omega
    · rw [State.iotaDone_end hlt ho]
      simp only [State.stepsLeft, State.squeezesAfter, hp, ho, if_false]
      omega

/-- While busy a turn of the sequencer brings the command one step nearer to IDLE (R146). -/
theorem State.Inv.stepsLeft_engineTurn (h : s.Inv) (hp : s.phase ≠ .idle) (ht : engineTurn s = .next t) :
    t.stepsLeft + 1 = s.stepsLeft := by
  have hr := h.rndRange
  rcases engineTurn_cases ht with ⟨hi, -⟩ | ⟨hq, rfl⟩ | ⟨hq, b, -, rfl⟩ | ⟨hq, rfl⟩ | ⟨hq, rfl⟩ | ⟨hq, rfl⟩ |
    ⟨hq, -, rfl⟩ | ⟨hq, rfl⟩
  · exact absurd hi hp
  · simp [State.stepsLeft, hq]
  · simp [State.stepsLeft, State.squeezesAfter, hq, (h.regSeeded hq).2]
    omega
  · simp only [State.stepsLeft, State.squeezesAfter, hq]
    omega
  · simp only [State.stepsLeft, State.squeezesAfter, hq]
    omega
  · simp only [State.stepsLeft, State.squeezesAfter, hq]
    omega
  · exact State.stepsLeft_iotaDone hq hr
  · simp [State.stepsLeft, hq]

/-- An idle engine has no steps left. -/
theorem State.ne_idle_of_stepsLeft (h : 0 < s.stepsLeft) : s.phase ≠ .idle := fun hp => by
  simp [State.stepsLeft, hp] at h

/-! ### What a command works on (R145) -/

/-- What the end of a round does to the work of a state depends on that work alone. -/
theorem State.iotaDone_work (s : State) : s.work.iotaDone = s.iotaDone.work := by
  by_cases hlt : s.rnd.toNat < 23
  · rw [State.iotaDone_next hlt, State.iotaDone_next (s := s.work) hlt]
    rfl
  · by_cases ho : s.pend.op = opFinal
    · rw [State.iotaDone_squeeze hlt ho, State.iotaDone_squeeze (s := s.work) hlt ho]
      rfl
    · rw [State.iotaDone_end hlt ho, State.iotaDone_end (s := s.work) hlt ho]
      rfl

/-- What a turn of the sequencer does to the work of a state depends on that work alone. -/
theorem engineTurn_work (h : engineTurn s = .next t) : engineTurn s.work = .next t.work := by
  rcases engineTurn_cases h with ⟨hp, rfl⟩ | ⟨hp, rfl⟩ | ⟨hp, b, hb, rfl⟩ | ⟨hp, rfl⟩ | ⟨hp, rfl⟩ | ⟨hp, rfl⟩ |
    ⟨hp, hr, rfl⟩ | ⟨hp, rfl⟩
  · exact engineTurn_idle (s := t.work) hp
  · rw [engineTurn_clr (s := s.work) hp, State.cleared_eq, State.cleared_eq]
    simp only [State.work]
  · rw [engineTurn_xor (s := s.work) (b := b) hp hb, State.xored_eq, State.xored_eq]
    simp only [State.work]
  · exact engineTurn_theta (s := s.work) hp
  · exact engineTurn_rhopi (s := s.work) hp
  · exact engineTurn_chi (s := s.work) hp
  · rw [engineTurn_iota (s := s.work) hp hr, State.iotaDone_work]
  · rw [engineTurn_sqz (s := s.work) hp, State.squeezed_eq, State.squeezed_eq]
    simp only [State.work]

/-- A host access takes no turn from the list. -/
theorem hostAccess_turns {a : Access} (h : hostAccess a s = .next t) : t.turns = s.turns := by
  rcases hostAccess_next_cases h with ⟨rs, rfl⟩ | ⟨e, rs, rfl⟩ | ⟨off, n, v, -, -, -, -, rfl⟩ | ⟨v, i, -, -, -, rfl⟩
  · rfl
  · exact s.raise_turns e
  · rfl
  · exact s.issued_turns i

/-- A host access gives a next state, whatever it is. -/
theorem hostAccess_completes (a : Access) (s : State) : ∃ t, hostAccess a s = .next t := by
  rcases hostAccess_cases a s with ⟨_, _, _, _, he⟩ | ⟨_, _, _, _, he⟩ | ⟨_, _, _, _, _, he⟩ |
    ⟨_, _, _, _, _, _, he⟩ | ⟨_, _, _, _, _, _, _, he⟩ | ⟨_, _, _, _, he⟩ | ⟨_, _, _, _, _, _, _, he⟩ <;>
    exact ⟨_, he⟩

/-- While busy a host access changes nothing a command works on. -/
theorem hostAccess_work {a : Access} (hp : s.phase ≠ .idle) (h : hostAccess a s = .next t) : t.work = s.work := by
  rcases hostAccess_next_cases h with ⟨rs, rfl⟩ | ⟨e, rs, rfl⟩ | ⟨_, _, _, _, _, _, hi, -⟩ | ⟨_, _, _, hi, -⟩
  · rfl
  · exact s.raise_work e
  · exact absurd hi hp
  · exact absurd hi hp

/-- States of the same work have the same steps left. -/
theorem State.stepsLeft_congr (h : t.work = s.work) : t.stepsLeft = s.stepsLeft := by
  change t.work.stepsLeft = s.work.stepsLeft
  rw [h]

/-! ### Host accesses between the turns of a command -/

/-- Turns of the two agents that leave the command in flight until the last, the sequencer's: the run completes, and
its work is that of the sequencer's turns alone. -/
theorem State.Inv.run_interleaved {L : List Turn} : ∀ {s : State}, s.Inv → s.turns = L ++ [.engine] → .reset ∉ L →
    L.count .engine < s.stepsLeft →
    ∃ t, s.run (L.length + 1) = .next t ∧ engineTurns (L.count .engine + 1) s.work = .next t.work := by
  induction L with
  | nil =>
    intro s h hts _ _
    obtain ⟨t, ht⟩ := (h.withFlags s.errCmd s.errBusy s.errAcc [] s.reads).engineTurn_completes
    exact ⟨t, run_one ((step_engine hts).trans ht), engineTurns_succ (engineTurn_work (s := { s with turns := [] }) ht)⟩
  | cons x L ih =>
    intro s h hts hreset hlt
    have h' : State.Inv { s with turns := L ++ [.engine] } := h.withFlags _ _ _ _ _
    have hp := State.ne_idle_of_stepsLeft (Nat.zero_lt_of_lt hlt)
    have hreset' : .reset ∉ L := fun hm => hreset (List.mem_cons_of_mem _ hm)
    cases x with
    | reset => exact absurd List.mem_cons_self hreset
    | host a =>
      obtain ⟨u, hu⟩ := hostAccess_completes a { s with turns := L ++ [.engine] }
      have hwork : u.work = s.work := hostAccess_work (s := { s with turns := L ++ [.engine] }) hp hu
      rw [List.count_cons_of_ne (by simp)] at hlt ⊢
      obtain ⟨t, ht, hk⟩ := ih (h'.hostAccess_next hu) (hostAccess_turns hu) hreset'
        (by rwa [State.stepsLeft_congr hwork])
      exact ⟨t, (run_succ ((step_host hts).trans hu)).trans ht, hwork ▸ hk⟩
    | engine =>
      obtain ⟨u, hu⟩ := h'.engineTurn_completes
      have hsteps : u.stepsLeft + 1 = s.stepsLeft := h'.stepsLeft_engineTurn hp hu
      rw [List.count_cons_self] at hlt ⊢
      obtain ⟨t, ht, hk⟩ := ih (h'.engineTurn_next hu) (engineTurn_turns hu) hreset' (by omega)
      exact ⟨t, (run_succ ((step_engine hts).trans hu)).trans ht, (engineTurns_succ (engineTurn_work (s := { s with turns := L ++ [.engine] }) hu)).trans hk⟩

/-- Settles O45: the turns as they are and the sequencer's turns alone are two interleavings of the same turns of the
sequencer. -/
theorem commandAtomicity : Obligations.CommandAtomicity := by
  intro s L h hts hreset hlt
  obtain ⟨t, ht, hwork⟩ := h.run_interleaved hts hreset hlt
  have hcount : (List.replicate (L.count .engine) Turn.engine).count .engine = L.count .engine :=
    List.count_replicate_self
  obtain ⟨u, hu, hwork'⟩ := State.Inv.run_interleaved (L := List.replicate (L.count .engine) .engine)
    (h.withFlags s.errCmd s.errBusy s.errAcc (List.replicate (L.count .engine + 1) .engine) s.reads)
    List.replicate_succ' (by simp [List.mem_replicate]) (by rw [hcount]; exact hlt)
  rw [hcount] at hwork'
  rw [List.length_replicate] at hu
  exact ⟨t, u, ht, hu, next_inj (hwork.symm.trans hwork')⟩

end Sys2Proof.Machine
end

section
/-! PROOFS. The padded message block by block (41_sponge.md R110, R117, R119). -/

namespace Sys2Proof.Machine

theorem pad_length (M : List Byte) : (pad M).length = 136 * numBlocks M.length := by simp [pad, padWith]

theorem pad_length_div (M : List Byte) : (pad M).length / 136 = M.length / 136 + 1 := by
  rw [pad_length, Nat.mul_div_cancel_left _ (by decide), numBlocks]

/-- The bytes of a padded message (R110). -/
theorem pad_getD (M : List Byte) {p : Nat} (hp : p < 136 * numBlocks M.length) : (pad M).getD p 0x00#8 =
    (if p < M.length then M.getD p 0x00#8 else 0x00#8) ||| (if p = M.length then 0x01#8 else 0x00#8)
      ||| (if p = 136 * numBlocks M.length - 1 then 0x80#8 else 0x00#8) := by
  simp [pad, padWith, hp, Config.padMarkers]

/-- A block before the last is message bytes (R119). -/
theorem blockAt_pad_whole {M : List Byte} {k : Nat} {b : Block} (hk : k < M.length / 136)
    (hb : ∀ i (hi : i < 136), b[i] = M.getD (136 * k + i) 0x00#8) : blockAt (pad M) k = b := by
  refine Vector.ext fun i hi => ?_
  have hn : numBlocks M.length = M.length / 136 + 1 := rfl
  have hp : 136 * k + i < M.length := by omega
  rw [blockAt, Vector.getElem_ofFn, pad_getD M (by omega), if_pos hp, if_neg (by omega), if_neg (by omega), hb i hi]
  simp

/-- The last block is PADBLOCK of what is left of the message (R119). -/
theorem blockAt_pad_last {M : List Byte} {b : Block}
    (hb : ∀ i (hi : i < 136), i < M.length % 136 → b[i] = M.getD (136 * (M.length / 136) + i) 0x00#8) :
    blockAt (pad M) (M.length / 136) = padBlock b (M.length % 136) := by
  refine Vector.ext fun i hi => ?_
  have hn : numBlocks M.length = M.length / 136 + 1 := rfl
  have hin : 136 * (M.length / 136) + i < M.length ↔ i < M.length % 136 := by omega
  have hfirst : 136 * (M.length / 136) + i = M.length ↔ i = M.length % 136 := by omega
  have hlast : 136 * (M.length / 136) + i = 136 * numBlocks M.length - 1 ↔ i = 135 := by omega
  rw [blockAt, Vector.getElem_ofFn, pad_getD M (by omega), padBlock, padBlockWith, Vector.getElem_ofFn]
  simp only [hin, hfirst, hlast, Config.padMarkers]
  congr 2
  split_ifs with h
  · exact (hb i hi h).symm
  · rfl

/-- One block more (R114). -/
theorem absorbBlocks_succ (A : Lanes) (P : List Byte) (k : Nat) :
    absorbBlocks A P (k + 1) = absorbBlock (absorbBlocks A P k) (blockAt P k) := by
  rw [absorbBlocks, List.range_succ, List.foldl_append]
  rfl

/-- HASH absorbs every block of the padded message (R117). -/
theorem keccak256_eq (M : List Byte) :
    keccak256 M = squeezeOut (absorbBlocks zeroLanes (pad M) (M.length / 136 + 1)) := by
  rw [← pad_length_div]
  rfl

end Sys2Proof.Machine
end

section
/-! PROOFS. The turns a command takes from its issue until the engine is idle (42_commands.md R131 to R133, R146). -/

namespace Sys2Proof.Machine

variable {s t : State}

theorem engineTurns_add {j k : Nat} (h : engineTurns j s = .next t) : engineTurns (j + k) s = engineTurns k t := by
  induction j generalizing s with
  | zero => rw [next_inj h, Nat.zero_add]
  | succ j ih =>
    obtain ⟨v, hs, hv⟩ := engineTurns_next h
    rw [Nat.add_right_comm, engineTurns_succ hs]
    exact ih hv

/-- The sequencer's turns as a run of steps. -/
theorem engineTurns_of_byEngines {k : Nat} (h : s.byEngines k = .next t) :
    engineTurns k s = .next { t with turns := s.turns } :=
  engineTurns_setTurns (engineTurns_of_run (s := { s with turns := List.replicate k .engine }) rfl h) s.turns

/-- The 24 rounds of a permuting command, from its seeding on: KECCAK_F of the lanes (40_permutation.md R95). -/
theorem run_keccakF {ts : List Turn} (hts : s.turns = List.replicate 96 .engine ++ ts) (hp : s.phase = .theta)
    (hr : s.r = Config.lfsrSeed) (hrnd : s.rnd = 0#5) :
    s.run 96 = .next { s with
      lanes := keccakF s.lanes, r := (keccakFull s.lanes).2, rnd := 23#5
      phase := if s.pend.op = opFinal then .sqz else .idle, turns := ts } := by
  have hrounds := run_rounds (ts := .engine :: .engine :: .engine :: .engine :: ts) 23 s hts hp (by rw [hrnd]; rfl)
  have hlast := run_round (ts := ts) (u := { s with
    lanes := (keccakRound^[23] (s.lanes, s.r)).1, r := (keccakRound^[23] (s.lanes, s.r)).2, rnd := 23#5
    turns := .engine :: .engine :: .engine :: .engine :: ts }) rfl hp (by simp)
  rw [run_add (j := 4 * 23) (k := 4) hrounds, hlast, State.closeRound_last rfl, hr, keccakF, keccakFull_eq]

theorem engineTurns_keccakF (hp : s.phase = .theta) (hr : s.r = Config.lfsrSeed) (hrnd : s.rnd = 0#5) :
    engineTurns 96 s = .next { s with
      lanes := keccakF s.lanes, r := (keccakFull s.lanes).2, rnd := 23#5
      phase := if s.pend.op = opFinal then .sqz else .idle } := by
  exact (engineTurns_of_byEngines (run_keccakF (s := { s with turns := List.replicate 96 .engine })
    (ts := []) (List.append_nil _).symm hp hr hrnd) :)

/-- XOR and the 24 rounds: ABSORB_BLOCK of the block the command absorbs (41_sponge.md R114). -/
theorem engineTurns_absorbBlock {b : Block} (hp : s.phase = .xor) (hb : s.xorOperand = .ok b)
    (hr : s.r = Config.lfsrSeed) (hrnd : s.rnd = 0#5) :
    engineTurns 97 s = .next { s with
      lanes := absorbBlock s.lanes b, r := (keccakFull (xorBlock s.lanes (lanes17 b))).2, rnd := 23#5
      phase := if s.pend.op = opFinal then .sqz else .idle } := by
  rw [engineTurns_succ (engineTurn_xor hp hb), State.xored_eq]
  exact engineTurns_keccakF rfl hr hrnd

/-- INIT's one turn (42_commands.md R131). -/
theorem engineTurns_init (s : State) : engineTurns 1 (s.issued .init) = .next (s.issued .init).cleared :=
  engineTurns_succ (engineTurn_clr rfl)

/-- ABSORB's 97 turns (R132). -/
theorem engineTurns_absorb (s : State) : ∃ r, engineTurns 97 (s.issued .absorb) = .next { s with
    lanes := absorbBlock s.lanes s.block, r := r, rnd := 23#5, pend := { op := opAbsorb, n := 0#8 }
    phase := .idle } :=
  ⟨_, engineTurns_absorbBlock rfl (State.xorOperand_absorb rfl) rfl rfl⟩

/-- FINAL's 98 turns (R133). -/
theorem engineTurns_final (s : State) {n : BitVec 8} (hn : n.toNat ≤ 135) :
    ∃ r, engineTurns 98 (s.issued (.final n)) = .next (State.squeezed { s with
      lanes := absorbBlock s.lanes (padBlock s.block n.toNat), r := r, rnd := 23#5, pend := { op := opFinal, n := n }
      phase := .sqz }) :=
  ⟨_, (engineTurns_add (k := 1) (engineTurns_absorbBlock rfl (State.xorOperand_final rfl hn) rfl rfl)).trans
    (engineTurns_succ (engineTurn_sqz rfl))⟩

end Sys2Proof.Machine
end

section
/-! PROOFS. The hash program with its polls, segment by segment (42_commands.md R136; 30_encoding.md R67, R68). -/

namespace Sys2Proof.Machine

variable {s t : State}

/-! ### Segments repeated, and what a host at the end of its script does -/

/-- A segment for each number below `n`, the labels of each its own. -/
theorem Segment.range_flatMap {seg : Nat → List Line} {P : Nat → AgentsPred} {n : Nat}
    (h : ∀ i < n, Segment (seg i) (P i) (P (i + 1)))
    (hd : ∀ i j l, i < j → .label l ∈ seg j → .label l ∉ seg i) :
    Segment ((List.range n).flatMap seg) (P 0) (P n) := by
  induction n with
  | zero => exact Segment.nil fun _ _ => id
  | succ n ih =>
    rw [List.range_succ, List.flatMap_append, List.flatMap_singleton]
    refine (ih fun i hi => h i (by omega)).append (h n (by omega)) fun l hl hmem => ?_
    obtain ⟨i, hi, hli⟩ := List.mem_flatMap.mp hmem
    exact hd i n l (List.mem_range.mp hi) hl hli

/-- A line without a label for each number below `n`. -/
theorem Segment.range_map {f : Nat → Line} {P : Nat → AgentsPred} {n : Nat} (hf : ∀ i l, f i ≠ .label l)
    (h : ∀ i < n, Segment [f i] (P i) (P (i + 1))) : Segment ((List.range n).map f) (P 0) (P n) := by
  rw [List.map_eq_flatMap]
  exact Segment.range_flatMap h fun i j l _ hl _ => hf j l (List.mem_singleton.mp hl).symm

/-- A host at the end of its script beside an idle engine: no agent changes anything any more (log entries 1, 7). -/
theorem System.run_finished {y : System} (hpc : y.host.pc = y.host.script.length) (hp : y.engine.phase = .idle)
    (sched : List Agent) : System.run sched y = .next y := by
  induction sched with
  | nil => rfl
  | cons a sched ih =>
    cases a with
    | sequencer => rw [System.run_cons (System.step_sequencer_idle hp), ih]
    | host =>
      have hstep : y.step .host = .next y := by
        rw [System.step, System.hostStep, hpc, List.getElem?_eq_none (Nat.le_refl _)]
      rw [System.run_cons hstep, ih]

/-! ### A command and its poll -/

/-- A command's word, and that the decoder reads the command back from it (30_encoding.md R61). -/
theorem encode_command {i : Instr} (hi : isCommand i = true) (hw : i.wf = true) :
    ∃ w, encode i = .command w ∧ decodeCommand w = .ok i := by
  cases i with
  | init => exact ⟨_, rfl, rfl⟩
  | absorb => exact ⟨_, rfl, rfl⟩
  | final n => exact ⟨_, rfl, Laws.RoundTrip.final n hw⟩
  | permute => exact ⟨_, rfl, rfl⟩
  | squeeze => exact ⟨_, rfl, rfl⟩
  | _ => cases hi

/-- A command beside an idle engine and the poll that follows: if the turns the command takes from its issue lead from
`P` to `Q`, so do its lines, under every schedule. -/
theorem Segment.issue {i : Instr} {l : String} {P Q : State → Prop} (hi : isCommand i = true) (hw : i.wf = true)
    (hidle : ∀ s, P s → s.phase = .idle)
    (h : ∀ s, P s → ∃ u k, engineTurns k (s.issued i) = .next u ∧ u.phase = .idle ∧ Q u) :
    Segment (cmdLines i ++ waitLines l) (fun s _ => P s) (fun s _ => Q s) := by
  obtain ⟨w, he, hd⟩ := encode_command hi hw
  rw [cmdLines, he]
  refine Segment.command (fun s _ => hidle s) fun s _ hP => ?_
  obtain ⟨u, k, hk, hu, hQ⟩ := h s hP
  have hword : (w.setWidth 64).setWidth 32 = w := by simp
  refine ⟨_, u, k, ?_, hk, hu, fun _ => ⟨hQ, fun _ => id⟩⟩
  exact (memWrite_command (hword.symm ▸ hd) s).trans (exec_command_idle hi hw (hidle s hP))

/-! ### The labels of the pieces -/

@[simp] theorem label_notMem_cmdLines {i : Instr} {l : String} : .label l ∉ cmdLines i := by
  rw [cmdLines]
  cases encode i <;> simp

@[simp] theorem label_mem_waitLines {l l' : String} : .label l ∈ waitLines l' ↔ l = l' := by simp [waitLines]

@[simp] theorem label_notMem_blkLines {bs : List Byte} {l : String} : .label l ∉ blkLines bs := by simp [blkLines]

@[simp] theorem label_notMem_digestLines {l : String} : .label l ∉ digestLines := by simp [digestLines]

/-! ### What the engine is between the pieces -/

/-- An idle engine with no error flag set. -/
structure State.Quiet (s : State) : Prop where
  idle : s.phase = .idle
  errCmd : s.errCmd = false
  errBusy : s.errBusy = false
  errAcc : s.errAcc = false

/-- `STATUS` of an idle engine with no error flag set (10_state.md R25). -/
theorem State.Quiet.status (h : s.Quiet) : s.status = 0x00000000#32 := by
  rw [State.status, h.errAcc, h.errBusy, h.errCmd, s.busy_eq_false.mpr h.idle]
  rfl

/-- `BLK` begins with the first `m` of some bytes. -/
def State.BlkBegins (s : State) (bs : List Byte) (m : Nat) : Prop := ∀ k < m, s.mem.read k = bs.getD k 0x00#8

/-- A hash on its way: a quiet engine with the lanes `A`, and `m` of the next block's bytes in `BLK`. -/
structure State.Hashing (A : Lanes) (bs : List Byte) (m : Nat) (s : State) : Prop where
  quiet : s.Quiet
  lanes : s.lanes = A
  blk : s.BlkBegins bs m

/-- Nothing of the next block need be in `BLK` at the start of its writes. -/
theorem State.blkBegins_zero (s : State) (bs : List Byte) : s.BlkBegins bs 0 := fun _ hk => absurd hk (Nat.not_lt_zero _)

/-- The bytes of `BLK` are the block's. -/
theorem State.BlkBegins.block {bs : List Byte} {m : Nat} (h : s.BlkBegins bs m) {i : Nat} (hi : i < 136)
    (him : i < m) : s.block[i] = bs.getD i 0x00#8 := by rw [block_getElem s hi, h i him]

/-! ### The writes of a block (R68) -/

/-- The low byte of an 8-bit write's value. -/
theorem byteOf_setWidth (b : Byte) : byteOf (b.setWidth 64) 0 = b := by
  rw [byteOf, Nat.mul_zero, ← BitVec.setWidth_eq_extractLsb' (by decide), BitVec.setWidth_setWidth_of_le _ (by decide),
    BitVec.setWidth_eq]

/-- A write of the next bytes to `BLK`. -/
theorem Segment.writeBytes {A : Lanes} {bs : List Byte} {m : Nat} {w : Width} {v : BitVec 64}
    (hm : m + w.bytes ≤ 136) (ha : m % w.bytes = 0) (hv : ∀ k < w.bytes, byteOf v k = bs.getD (m + k) 0x00#8) :
    Segment [.wr w (BitVec.ofNat 10 m) v] (fun s _ => s.Hashing A bs m) (fun s _ => s.Hashing A bs (m + w.bytes)) := by
  have hpos : 0 < w.bytes := by cases w <;> decide
  have hoff : (BitVec.ofNat 10 m).toNat = m := by simp; omega
  refine Segment.wr (fun s _ h => h.quiet.idle) fun s _ ⟨hq, hA, hblk⟩ => ?_
  have hacc : byteAccess (BitVec.ofNat 10 m) w.bytes = true :=
    byteAccess_iff.mpr ⟨by cases w <;> decide, by rw [hoff, ha]⟩
  refine ⟨_, memWrite_blk_idle hq.idle (by omega) hacc v, ⟨hq.idle, hq.errCmd, hq.errBusy, hq.errAcc⟩, hA,
    fun k hk => ?_⟩
  change (s.mem.writeBytes _ _).read k = _
  rw [hoff, read_writeBytesOf]
  split_ifs with hin
  · rw [hv _ (by omega), show m + (k - m) = k by omega]
  · exact hblk k (by omega)

/-- The whole lanes of a block, by 64-bit writes. -/
theorem Segment.writeWords {A : Lanes} {bs : List Byte} {n : Nat} (hn : 8 * n ≤ 136) :
    Segment ((List.range n).map fun i =>
        .wr .w64 (BitVec.ofNat 10 (8 * i)) (leValue 8 fun k => bs.getD (8 * i + k) 0x00#8))
      (fun s _ => s.Hashing A bs 0) (fun s _ => s.Hashing A bs (8 * n)) := by
  refine Segment.range_map (P := fun i s _ => s.Hashing A bs (8 * i)) nofun fun i hi => ?_
  refine Segment.writeBytes (w := .w64) (show 8 * i + 8 ≤ 136 by omega) (Nat.mul_mod_right 8 i) fun k hk => ?_
  rw [byteOf_leValue 8 _ (by decide), if_pos (show k < 8 from hk)]

/-- The bytes of a block from an offset on, by 8-bit writes. -/
theorem Segment.writeRest {A : Lanes} {bs : List Byte} {m n : Nat} (hn : m + n ≤ 136) :
    Segment ((List.range n).map fun j => .wr .w8 (BitVec.ofNat 10 (m + j)) ((bs.getD (m + j) 0x00#8).setWidth 64))
      (fun s _ => s.Hashing A bs m) (fun s _ => s.Hashing A bs (m + n)) := by
  refine Segment.range_map (P := fun j s _ => s.Hashing A bs (m + j)) nofun fun j hj => ?_
  refine Segment.writeBytes (w := .w8) (show m + j + 1 ≤ 136 by omega) (Nat.mod_one _) fun k hk => ?_
  obtain rfl : k = 0 := Nat.lt_one_iff.mp hk
  exact byteOf_setWidth _

/-- The lines that write a block: the whole lanes, then the bytes that are left. -/
theorem Segment.writeBlock {A : Lanes} {bs : List Byte} (hlen : bs.length ≤ 136) :
    Segment (blkLines bs) (fun s _ => s.Hashing A bs 0) (fun s _ => s.Hashing A bs bs.length) := by
  have h := (Segment.writeWords (A := A) (bs := bs) (n := bs.length / 8) (by omega)).append
    (Segment.writeRest (m := 8 * (bs.length / 8)) (n := bs.length % 8) (by omega)) (by simp)
  rwa [Nat.div_add_mod] at h

/-! ### The blocks of a message -/

theorem messageBlock_length (M : List Byte) (k : Nat) :
    (messageBlock M k).length = min 136 (M.length - 136 * k) := by simp [messageBlock]

theorem messageBlock_getD (M : List Byte) (k : Nat) {i : Nat} (hi : i < 136) :
    (messageBlock M k).getD i 0x00#8 = M.getD (136 * k + i) 0x00#8 := by
  simp [messageBlock, List.getD_eq_getElem?_getD, hi]

/-- The lanes after the first `k` blocks of a padded message. -/
def lanesAfter (M : List Byte) (k : Nat) : Lanes := absorbBlocks zeroLanes (pad M) k

/-- INIT and its poll: a hash at its start, whatever the engine held. -/
theorem Segment.hashInit {l : String} {bs : List Byte} : Segment (cmdLines .init ++ waitLines l)
    (fun s _ => s.phase = .idle) (fun s _ => s.Hashing zeroLanes bs 0) :=
  Segment.issue rfl rfl (fun _ => id) fun s _ =>
    ⟨_, 1, engineTurns_init s, rfl, ⟨rfl, rfl, rfl, rfl⟩, rfl, State.blkBegins_zero _ _⟩

/-- ABSORB of a whole block and its poll. -/
theorem Segment.hashAbsorb {M : List Byte} {k : Nat} {l : String} {bs : List Byte} (hk : k < M.length / 136) :
    Segment (cmdLines .absorb ++ waitLines l)
      (fun s _ => s.Hashing (lanesAfter M k) (messageBlock M k) (messageBlock M k).length)
      (fun s _ => s.Hashing (lanesAfter M (k + 1)) bs 0) := by
  refine Segment.issue rfl rfl (fun s h => h.quiet.idle) fun s ⟨hq, hA, hblk⟩ => ?_
  have hlen : (messageBlock M k).length = 136 := by rw [messageBlock_length]; omega
  have hblock : blockAt (pad M) k = s.block := blockAt_pad_whole hk fun i hi => by
    rw [hblk.block hi (by omega), messageBlock_getD M k hi]
  obtain ⟨r, hr⟩ := engineTurns_absorb s
  refine ⟨_, 97, hr, rfl, ⟨rfl, hq.errCmd, hq.errBusy, hq.errAcc⟩, ?_, State.blkBegins_zero _ _⟩
  rw [lanesAfter, absorbBlocks_succ, hblock, ← lanesAfter, ← hA]

/-- A hash that is done: a quiet engine with the digest in `DOUT`. -/
structure State.Hashed (d : Digest) (s : State) : Prop where
  quiet : s.Quiet
  dout : s.dout = d

theorem finalOf_wf (M : List Byte) : (finalOf M).wf = true := by
  simp [finalOf, Instr.wf]
  omega

/-- FINAL of what is left of the message and its poll. -/
theorem Segment.hashFinal {M : List Byte} {l : String} : Segment (cmdLines (finalOf M) ++ waitLines l)
    (fun s _ => s.Hashing (lanesAfter M (M.length / 136)) (messageBlock M (M.length / 136))
      (messageBlock M (M.length / 136)).length)
    (fun s _ => s.Hashed (keccak256 M)) := by
  refine Segment.issue rfl (finalOf_wf M) (fun s h => h.quiet.idle) fun s ⟨hq, hA, hblk⟩ => ?_
  have hlen : (messageBlock M (M.length / 136)).length = M.length % 136 := by rw [messageBlock_length]; omega
  have hn : (BitVec.ofNat 8 (M.length % 136)).toNat = M.length % 136 := by simp; omega
  have hblock : blockAt (pad M) (M.length / 136) = padBlock s.block (M.length % 136) :=
    blockAt_pad_last fun i hi hrest => by rw [hblk.block hi (by omega), messageBlock_getD M _ hi]
  obtain ⟨r, hr⟩ := engineTurns_final s (n := BitVec.ofNat 8 (M.length % 136)) (by omega)
  refine ⟨_, 98, hr, State.squeezed_phase, ⟨State.squeezed_phase, State.squeezed_errCmd.trans hq.errCmd,
    State.squeezed_errBusy.trans hq.errBusy, State.squeezed_errAcc.trans hq.errAcc⟩, ?_⟩
  rw [State.dout_squeezed, hn, hA, keccak256_eq, absorbBlocks_succ, hblock]
  rfl

/-! ### The digest (R68) -/

/-- A hash that is done, of whose digest the host has read the words at some offsets, newest first. -/
def DigestRead (d : Digest) (xs : List (String × Offset)) : AgentsPred := fun s n =>
  s.Hashed d ∧ ∃ n', n = xs.map (fun x => (x.1, readValue s x.2 8)) ++ n'

/-- The words of the digest, newest first. -/
def digestWords : List (String × Offset) :=
  [("d3", 0x118#10), ("d2", 0x110#10), ("d1", 0x108#10), ("d0", 0x100#10)]

/-- One more word of the digest. -/
theorem Segment.readDigestWord {d : Digest} {xs : List (String × Offset)} (x : String × Offset)
    (hl : legal x.2 8 .read = true) : Segment [.rd .w64 x.2 x.1] (DigestRead d xs) (DigestRead d (x :: xs)) :=
  Segment.rd (fun _ _ h => h.1.quiet.idle) hl fun _ _ ⟨h, n', hn⟩ => ⟨h, n', by rw [hn]; rfl⟩

/-- The four reads of the digest. -/
theorem Segment.readDigest {d : Digest} : Segment digestLines (fun s _ => s.Hashed d)
    (DigestRead d digestWords) := by
  have h0 : Segment [] (fun s _ => s.Hashed d) (DigestRead d []) := Segment.nil fun _ n h => ⟨h, n, rfl⟩
  have h1 := h0.append (Segment.readDigestWord ("d0", 0x100#10) (by decide)) (by simp)
  have h2 := h1.append (Segment.readDigestWord ("d1", 0x108#10) (by decide)) (by simp)
  have h3 := h2.append (Segment.readDigestWord ("d2", 0x110#10) (by decide)) (by simp)
  exact h3.append (Segment.readDigestWord ("d3", 0x118#10) (by decide)) (by simp)

/-- The bytes of a word read from `DOUT` are bytes of the digest (20_memory.md R42). -/
theorem State.Hashed.byteOf_word {d : Digest} (h : s.Hashed d) {off : Offset} {j : Nat} (ho : off.toNat = 0x100 + j)
    {k : Nat} (hk : k < 8) (hj : j + k < 32) : byteOf (readValue s off 8) k = d[j + k] := by
  rw [byteOf_readValue_stored (storedOffset_iff.mpr (by omega)) (Nat.le_refl 8), if_pos hk, ho, Nat.add_assoc,
    ← dout_getElem s hj]
  simp only [h.dout]

/-! ### The whole program -/

/-- The lines of block `k`, with its ABSORB and its poll. -/
def absorbLines (M : List Byte) (k : Nat) : List Line :=
  blkLines (messageBlock M k) ++ (cmdLines .absorb ++ waitLines ("b" ++ toString k))

theorem label_mem_absorbLines {M : List Byte} {k : Nat} {l : String} :
    .label l ∈ absorbLines M k ↔ l = "b" ++ toString k := by simp [absorbLines]

/-- The hash program: INIT and the whole blocks, then the last block and the digest. -/
theorem hashProgram_eq (M : List Byte) : hashProgram M =
    (cmdLines .init ++ waitLines "i" ++ (List.range (M.length / 136)).flatMap (absorbLines M)) ++
      (blkLines (messageBlock M (M.length / 136)) ++ (cmdLines (finalOf M) ++ waitLines "f") ++ digestLines) := by
  simp only [hashProgram, List.append_assoc]
  rfl

/-- The label of a block's wait is that block's own. -/
theorem blockLabel_inj {i j : Nat} : "b" ++ toString i = "b" ++ toString j ↔ i = j := by
  rw [String.append_right_inj]
  exact Nat.repr_inj

theorem ne_blockLabel {l : String} (hl : l.toList.head? ≠ "b".toList.head?) (k : Nat) : l ≠ "b" ++ toString k := by
  rintro rfl
  simp at hl

theorem Segment.absorbWholeBlock {M : List Byte} {k : Nat} {bs : List Byte} (hk : k < M.length / 136) :
    Segment (absorbLines M k) (fun s _ => s.Hashing (lanesAfter M k) (messageBlock M k) 0)
      (fun s _ => s.Hashing (lanesAfter M (k + 1)) bs 0) := by
  have hlen : (messageBlock M k).length ≤ 136 := by rw [messageBlock_length]; omega
  exact (Segment.writeBlock hlen).append (Segment.hashAbsorb hk) fun _ _ => label_notMem_blkLines

/-- INIT and the whole blocks of the message. -/
theorem Segment.hashWholeBlocks (M : List Byte) :
    Segment (cmdLines .init ++ waitLines "i" ++ (List.range (M.length / 136)).flatMap (absorbLines M))
      (fun s _ => s.phase = .idle)
      (fun s _ => s.Hashing (lanesAfter M (M.length / 136)) (messageBlock M (M.length / 136)) 0) := by
  have hstart : Segment (cmdLines .init ++ waitLines "i") (fun s _ => s.phase = .idle)
      (fun s _ => s.Hashing (lanesAfter M 0) (messageBlock M 0) 0) := Segment.hashInit
  have hblocks := Segment.range_flatMap (n := M.length / 136) (seg := absorbLines M)
    (P := fun k s _ => s.Hashing (lanesAfter M k) (messageBlock M k) 0) (fun k hk => Segment.absorbWholeBlock hk)
    fun i j l hij hl hl' => hij.ne (blockLabel_inj.mp
      ((label_mem_absorbLines.mp hl').symm.trans (label_mem_absorbLines.mp hl)))
  refine hstart.append hblocks fun l hl => ?_
  obtain ⟨k, -, hk⟩ := List.mem_flatMap.mp hl
  intro hi
  have hli : l = "i" := by simpa using hi
  exact ne_blockLabel (by rw [hli]; decide) k (label_mem_absorbLines.mp hk)

/-- The last block of the message, FINAL and the digest. -/
theorem Segment.hashLastBlock (M : List Byte) :
    Segment (blkLines (messageBlock M (M.length / 136)) ++ (cmdLines (finalOf M) ++ waitLines "f")
        ++ digestLines)
      (fun s _ => s.Hashing (lanesAfter M (M.length / 136)) (messageBlock M (M.length / 136)) 0)
      (DigestRead (keccak256 M) digestWords) := by
  have hlen : (messageBlock M (M.length / 136)).length ≤ 136 := by rw [messageBlock_length]; omega
  exact ((Segment.writeBlock hlen).append Segment.hashFinal fun _ _ => label_notMem_blkLines).append Segment.readDigest
    fun _ hl => absurd hl label_notMem_digestLines

/-- The hash program takes an idle engine to the digest of its message, read into four names. -/
theorem Segment.hash (M : List Byte) : Segment (hashProgram M) (fun s _ => s.phase = .idle)
    (DigestRead (keccak256 M) digestWords) := by
  rw [hashProgram_eq]
  refine (Segment.hashWholeBlocks M).append (Segment.hashLastBlock M) fun l hl => ?_
  have hf : l = "f" := by simpa using hl
  rw [List.mem_append, List.mem_flatMap]
  rintro (hi | ⟨k, -, hk⟩)
  · simp [hf] at hi
  · exact ne_blockLabel (by rw [hf]; decide) k (label_mem_absorbLines.mp hk)

/-- What the host has at the end: an idle engine, the digest in `DOUT`, and its words in the four names. -/
theorem DigestRead.result {y : System} {d : Digest} (h : DigestRead d digestWords y.engine y.host.names) :
    y.engine.dout = d ∧ y.engine.phase = .idle ∧ y.engine.status = 0x00000000#32 ∧ ∀ k : Fin 8,
      byteOf (y.host.value "d0") k.val = d[k.val] ∧ byteOf (y.host.value "d1") k.val = d[8 + k.val] ∧
      byteOf (y.host.value "d2") k.val = d[16 + k.val] ∧ byteOf (y.host.value "d3") k.val = d[24 + k.val] := by
  obtain ⟨hd, n, hn⟩ := h
  have h0 : y.host.value "d0" = readValue y.engine 0x100#10 8 := by simp [HostAgent.value, hn, digestWords]
  have h1 : y.host.value "d1" = readValue y.engine 0x108#10 8 := by simp [HostAgent.value, hn, digestWords]
  have h2 : y.host.value "d2" = readValue y.engine 0x110#10 8 := by simp [HostAgent.value, hn, digestWords]
  have h3 : y.host.value "d3" = readValue y.engine 0x118#10 8 := by simp [HostAgent.value, hn, digestWords]
  refine ⟨hd.dout, hd.quiet.idle, hd.quiet.status, fun k => ⟨?_, ?_, ?_, ?_⟩⟩
  · rw [h0, hd.byteOf_word (j := 0) rfl k.isLt (by omega)]
    simp only [Nat.zero_add]
  · rw [h1, hd.byteOf_word (j := 8) rfl k.isLt (by omega)]
  · rw [h2, hd.byteOf_word (j := 16) rfl k.isLt (by omega)]
  · rw [h3, hd.byteOf_word (j := 24) rfl k.isLt (by omega)]

/-- Settles O44: a run is still before the end of the script, or it has arrived there with the digest read and nothing
changes any more. -/
theorem hashProgramUnderEverySchedule : Obligations.HashProgramUnderEverySchedule := by
  intro s M hp
  obtain ⟨hpass, hreach⟩ := Segment.hash M [] [] (by simp)
  simp only [List.nil_append, List.append_nil, List.length_nil, Nat.zero_add] at hpass hreach
  refine ⟨fun sched => ?_, ?_⟩
  · rcases hpass sched (System.start (hashProgram M) s) rfl rfl hp with ⟨z, hz, hlt⟩ |
      ⟨as, rest, w, rfl, hr, hscript, hpc, hQ⟩
    · exact ⟨z, hz, fun he => absurd he hlt.ne⟩
    · have hend := System.run_finished (hpc.trans (by rw [hscript])) hQ.1.quiet.idle rest
      exact ⟨w, (System.run_append hr).trans hend, fun _ => hQ.result⟩
  · obtain ⟨as, w, hr, -, hpc, -⟩ := hreach (System.start (hashProgram M) s) rfl rfl hp
    exact ⟨as, w, hr, hpc⟩

end Sys2Proof.Machine
end

section
/-! PROOFS. The encoding (30_encoding.md): the command words as numbers, the decoder and the encoder as each other's
inverse, the lines of `cmd`, and the write of a word that is no command. -/

namespace Sys2Proof

open Machine

variable {w : Word}

/-! ### The phase codes (R66) -/

/-- The phase named by a code has that code. -/
@[simp] theorem Phase.code_ofCode : ∀ c : BitVec 3, (Phase.ofCode c).code = c := by decide

@[simp] theorem encode_toInstr (p : Phase) : encode p.toInstr = .phase p.code := by cases p <;> rfl

@[simp] theorem Phase.toInstr_wf (p : Phase) : p.toInstr.wf = true := by cases p <;> rfl

/-! ### The command words (R60, R61) -/

/-- A word of format K as a number. -/
theorem commandWord_toNat (op : BitVec 4) (n : BitVec 8) :
    (commandWord op n).toNat = 256 * n.toNat + op.toNat := by
  have hop : op.toNat < 2 ^ 8 := by omega
  have hn : (n.setWidth 32 <<< 8).toNat = n.toNat <<< 8 := by
    rw [BitVec.toNat_shiftLeft, BitVec.toNat_setWidth_of_le (by decide), Nat.shiftLeft_eq, Nat.mod_eq_of_lt (by omega)]
  rw [commandWord, BitVec.toNat_or, hn, BitVec.toNat_setWidth_of_le (by decide), ← Nat.shiftLeft_add_eq_or_of_lt hop,
    Nat.shiftLeft_eq, Nat.mul_comm]

/-- The decoder reads a command from a word exactly when the command is well formed and encodes as the word. -/
theorem decodeCommand_eq_ok_iff {i : Instr} :
    decodeCommand w = .ok i ↔ isCommand i = true ∧ i.wf = true ∧ encode i = .command w := by
  refine ⟨fun h => ⟨(decodeCommand_ok h).1, (decodeCommand_ok h).2, encode_of_decodeCommand h⟩, ?_⟩
  rintro ⟨hi, hw, he⟩
  obtain ⟨w', he', hd⟩ := encode_command hi hw
  rwa [Code.command.inj (he.symm.trans he')]

/-- The row of a command without an operand: it is read from its own word alone. -/
theorem decodeCommand_eq_plain_iff {i : Instr} {c : Word} (hi : isCommand i = true) (hw : i.wf = true)
    (he : encode i = .command c) : decodeCommand w = .ok i ↔ w = c := by
  rw [decodeCommand_eq_ok_iff]
  simp [hi, hw, he, eq_comm]

theorem decodeCommand_eq_init_iff : decodeCommand w = .ok .init ↔ w = 0x00000001#32 :=
  decodeCommand_eq_plain_iff rfl rfl rfl

theorem decodeCommand_eq_absorb_iff : decodeCommand w = .ok .absorb ↔ w = 0x00000002#32 :=
  decodeCommand_eq_plain_iff rfl rfl rfl

theorem decodeCommand_eq_permute_iff : decodeCommand w = .ok .permute ↔ w = 0x00000004#32 :=
  decodeCommand_eq_plain_iff rfl rfl rfl

theorem decodeCommand_eq_squeeze_iff : decodeCommand w = .ok .squeeze ↔ w = 0x00000005#32 :=
  decodeCommand_eq_plain_iff rfl rfl rfl

/-- The row of FINAL, which has one word for each operand (R62). -/
theorem decodeCommand_eq_final_iff {n : BitVec 8} :
    decodeCommand w = .ok (.final n) ↔ n.toNat ≤ 135 ∧ w.toNat = 256 * n.toNat + 3 := by
  have hword : commandWord opFinal n = w ↔ w.toNat = 256 * n.toNat + 3 := by
    rw [← BitVec.toNat_inj, commandWord_toNat, eq_comm]
    rfl
  simp [decodeCommand_eq_ok_iff, isCommand, Instr.wf, encode, hword]

/-- The legal words as numbers, row by row of the opcode map. -/
theorem decodeCommand_ok_iff_toNat : (∃ i, decodeCommand w = .ok i) ↔
    w.toNat = 1 ∨ w.toNat = 2 ∨ (∃ n ≤ 135, w.toNat = 256 * n + 3) ∨ w.toNat = 4 ∨ w.toNat = 5 := by
  constructor
  · rintro ⟨i, h⟩
    cases i with
    | init => exact .inl (congrArg BitVec.toNat (decodeCommand_eq_init_iff.mp h))
    | absorb => exact .inr (.inl (congrArg BitVec.toNat (decodeCommand_eq_absorb_iff.mp h)))
    | final n => exact .inr (.inr (.inl ⟨n.toNat, decodeCommand_eq_final_iff.mp h⟩))
    | permute => exact .inr (.inr (.inr (.inl (congrArg BitVec.toNat (decodeCommand_eq_permute_iff.mp h)))))
    | squeeze => exact .inr (.inr (.inr (.inr (congrArg BitVec.toNat (decodeCommand_eq_squeeze_iff.mp h)))))
    | _ => cases (decodeCommand_ok h).1
  · rintro (h | h | ⟨n, hn, h⟩ | h | h)
    · exact ⟨_, decodeCommand_eq_init_iff.mpr (BitVec.eq_of_toNat_eq h)⟩
    · exact ⟨_, decodeCommand_eq_absorb_iff.mpr (BitVec.eq_of_toNat_eq h)⟩
    · have hmod : (BitVec.ofNat 8 n).toNat = n := Nat.mod_eq_of_lt (by omega)
      exact ⟨_, (decodeCommand_eq_final_iff (n := BitVec.ofNat 8 n)).mpr ⟨hmod.trans_le hn, by rwa [hmod]⟩⟩
    · exact ⟨_, decodeCommand_eq_permute_iff.mpr (BitVec.eq_of_toNat_eq h)⟩
    · exact ⟨_, decodeCommand_eq_squeeze_iff.mpr (BitVec.eq_of_toNat_eq h)⟩

/-! ### Decoder and encoder -/

/-- Settles O1, row by row of the opcode table. -/
theorem decodeOfEncodeIsTheInstruction : Obligations.DecodeOfEncodeIsTheInstruction
  | .init => Laws.RoundTrip.init
  | .absorb => Laws.RoundTrip.absorb
  | .final n => Laws.RoundTrip.final n
  | .permute => Laws.RoundTrip.permute
  | .squeeze => Laws.RoundTrip.squeeze
  | .phaseIdle => Laws.RoundTrip.phaseIdle
  | .phaseClr => Laws.RoundTrip.phaseClr
  | .phaseXor => Laws.RoundTrip.phaseXor
  | .phaseTheta => Laws.RoundTrip.phaseTheta
  | .phaseRhopi => Laws.RoundTrip.phaseRhopi
  | .phaseChi => Laws.RoundTrip.phaseChi
  | .phaseIota => Laws.RoundTrip.phaseIota
  | .phaseSqz => Laws.RoundTrip.phaseSqz

/-- Settles O2: a command word by the inversion of the decoder, a phase code by the table of R66. -/
theorem everyCodeHasOneMeaning : Obligations.EveryCodeHasOneMeaning := by
  intro c i h
  cases c with
  | command w => exact (decodeCommand_eq_ok_iff.mp h).2
  | phase p =>
    rw [← Except.ok.inj h]
    exact ⟨Phase.toInstr_wf _, by rw [encode_toInstr, Phase.code_ofCode]⟩

/-- Settles O3: the legal words are 1, 2, 4, 5 and `256 n + 3`, and the bit fields of the word say the same. -/
theorem opcodeMapAndLegalWords : Obligations.OpcodeMapAndLegalWords := by
  refine fun w => ⟨?_, decodeCommand_eq_init_iff, decodeCommand_eq_absorb_iff, fun _ => decodeCommand_eq_final_iff,
    decodeCommand_eq_permute_iff, decodeCommand_eq_squeeze_iff⟩
  rw [decodeCommand_ok_iff_toNat]
  constructor
  · rintro (h | h | ⟨n, hn, h⟩ | h | h) <;> omega
  · rintro ⟨hlo, hhi, hres1, hres0, ⟨hop, hn⟩ | ⟨hop, hn⟩⟩
    · exact .inr (.inr (.inl ⟨w.toNat / 256 % 256, hn, by omega⟩))
    · omega

/-- Settles O4, from the rows of the opcode map and of the phase table. -/
theorem wordsOfTheSpecDecode : Obligations.WordsOfTheSpecDecode :=
  ⟨decodeCommand_eq_init_iff.mpr rfl, decodeCommand_eq_absorb_iff.mpr rfl,
    decodeCommand_eq_final_iff.mpr ⟨by decide, rfl⟩, decodeCommand_eq_permute_iff.mpr rfl,
    decodeCommand_eq_squeeze_iff.mpr rfl, by decide, decode_phase_code .xor, decode_phase_code .iota⟩

end Sys2Proof

namespace Sys2Proof.Machine

/-- `cmd` of an instruction with a command word is the one write of that word (R68). -/
theorem cmdLines_command {i : Instr} {w : Word} (h : encode i = .command w) :
    cmdLines i = [.wr .w32 0x200#10 (w.setWidth 64)] := by rw [cmdLines, h]

/-- Settles O6: each command's word is the number of its row. -/
theorem commandLinesOfTheScript : Obligations.CommandLinesOfTheScript := by
  refine ⟨cmdLines_command (w := 0x00000001#32) rfl, cmdLines_command (w := 0x00000002#32) rfl,
    cmdLines_command (w := 0x00000004#32) rfl, cmdLines_command (w := 0x00000005#32) rfl,
    fun n => ⟨_, cmdLines_command rfl, ?_⟩⟩
  rw [BitVec.toNat_setWidth_of_le (by decide), commandWord_toNat]
  rfl

/-- Settles O14: the write is legal, its word is rejected, and the engine is not busy. -/
theorem illegalCommandWordSetsOnlyErrCmd : Obligations.IllegalCommandWordSetsOnlyErrCmd := by
  intro s v hp hv
  rw [State.byHost_eq, hostAccess, memWrite_cmd (by decide) (by decide), writeCommand_illegal hv,
    State.rejectWord_idle hp]

end Sys2Proof.Machine
end

section
/-! PROOFS. The step mappings as pure operations (40_permutation.md R82 to R95): rotation, theta, the walk of RHO_PI and
its table, the round-constant register and iota. -/

namespace Sys2Proof.Machine

/-! ### Rotation (R82) -/

/-- The two shifted halves of a rotation never overlap: below bit `r` the left one is 0, from bit `r` on the right
one. -/
theorem rotl64_eq_or (a : Lane) {r : Nat} (hr : r ≤ 63) : rotl64 a r = (a <<< r) ||| (a >>> (64 - r)) := by
  refine BitVec.eq_of_getLsbD_eq fun i _ => ?_
  rw [rotl64, BitVec.getLsbD_xor, BitVec.getLsbD_or]
  by_cases h : i < r
  · simp [h]
  · simp [BitVec.getLsbD_of_ge a (64 - r + i) (by omega)]

theorem rotl64_zero (a : Lane) : rotl64 a 0 = a := by
  have hright : a >>> 64 = 0#64 := BitVec.ushiftRight_eq_zero (Nat.le_refl 64)
  simp [rotl64, hright]

/-- Settles O53: a bit of the rotation, its halves, and the rotation by 0. -/
theorem rotationMovesEveryBit : Obligations.RotationMovesEveryBit := fun a _ hr =>
  ⟨fun _ hi => rotl64_getLsbD a hr hi, fun _ => rotl64_eq_or a hr, rotl64_zero a⟩

/-! ### Theta (R84) -/

/-- The lane-wise XOR of two states. -/
def xorLanes (A B : Lanes) : Lanes := Vector.ofFn fun i => A[i] ^^^ B[i]

@[simp] theorem xorLanes_getElem (A B : Lanes) (i : Fin 25) : (xorLanes A B)[i] = A[i] ^^^ B[i] := by
  simp [xorLanes]

theorem laneAt_xorLanes (A B : Lanes) (x y : Fin 5) : laneAt (xorLanes A B) x y = laneAt A x y ^^^ laneAt B x y :=
  xorLanes_getElem A B _

theorem rotl64_xor (a b : Lane) (r : Nat) : rotl64 (a ^^^ b) r = rotl64 a r ^^^ rotl64 b r := by
  simp only [rotl64, BitVec.shiftLeft_xor_distrib, BitVec.ushiftRight_xor_distrib]
  ac_rfl

theorem thetaC_xorLanes (A B : Lanes) (x : Fin 5) : thetaC (xorLanes A B) x = thetaC A x ^^^ thetaC B x := by
  simp only [thetaC, laneAt_xorLanes]
  ac_rfl

theorem thetaD_xorLanes (A B : Lanes) (x : Fin 5) : thetaD (xorLanes A B) x = thetaD A x ^^^ thetaD B x := by
  simp only [thetaD, thetaC_xorLanes, rotl64_xor]
  ac_rfl

theorem theta_xorLanes (A B : Lanes) : theta (xorLanes A B) = xorLanes (theta A) (theta B) := by
  refine lanes_ext fun i => ?_
  simp only [theta_getElem, xorLanes_getElem, thetaD_xorLanes]
  ac_rfl

/-- Where theta's mask is 0 in every column it changes nothing. -/
theorem theta_eq_self {A : Lanes} (h : ∀ x, thetaD A x = 0#64) : theta A = A :=
  lanes_ext fun i => by rw [theta_getElem, h, BitVec.xor_zero]

/-- Column parities that are all one value, which the rotation by 1 keeps, cancel in theta's mask. -/
theorem thetaD_eq_zero {A : Lanes} {c : Lane} (hc : rotl64 c 1 = c) (h : ∀ x, thetaC A x = c) (x : Fin 5) :
    thetaD A x = 0#64 := by
  rw [thetaD, h, h, hc, BitVec.xor_self]

/-- Settles O54: theta's mask is linear, and the rotation by 1 keeps the words of all zeros and of all ones. -/
theorem thetaIsLinear : Obligations.ThetaIsLinear := by
  refine ⟨theta_xorLanes, fun A h => theta_eq_self ?_⟩
  rcases h with h | h
  · exact thetaD_eq_zero (by decide) h
  · exact thetaD_eq_zero (by decide) h

/-! ### Rho and pi: the table (R86 to R88) -/

theorem rhoPiTable_dst_nodup : (rhoPiTable.map RhoRow.dst).Nodup := by decide

theorem rhoPiTable_src_nodup : (rhoPiTable.map RhoRow.src).Nodup := by decide

/-- Every position but (0, 0) is the source of a row, which sends it to its place under pi (R87, R88). -/
theorem rhoPiTable_row_of_position : ∀ x y : Fin 5, idx x y ≠ 0 →
    ∃ row ∈ rhoPiTable, row.src = idx x y ∧ row.dst = idx y (2 * x + 3 * y) := by decide

theorem rhoPiTable_offset : ∀ row ∈ rhoPiTable, 1 ≤ row.r ∧ row.r ≤ 63 := by decide

/-- Settles O30: no two rows have the same source or the same destination. -/
theorem rhoPiTableIsThePositionMap : Obligations.RhoPiTableIsThePositionMap := by
  intro x y hxy
  obtain ⟨row, hrow, hsrc, hdst⟩ := rhoPiTable_row_of_position x y hxy
  obtain ⟨hlo, hhi⟩ := rhoPiTable_offset row hrow
  refine ⟨row, hrow, hsrc, hdst, hlo, hhi, fun row' hrow' h => ?_⟩
  rcases h with h | h
  · exact List.inj_on_of_nodup_map rhoPiTable_dst_nodup hrow' hrow h
  · exact List.inj_on_of_nodup_map rhoPiTable_src_nodup hrow' hrow h

/-! ### Rho and pi: the walk (R85) -/

/-- Where the walk of R85 stands after `t` moves from (1, 0). -/
def walkPos (t : Nat) : Fin 5 × Fin 5 := (fun p => (p.2, 2 * p.1 + 3 * p.2))^[t] (1, 0)

/-- The lane at which the walk stands after `t` moves. -/
def walkLane (t : Nat) : Fin 25 := idx (walkPos t).1 (walkPos t).2

theorem walkPos_succ (t : Nat) : walkPos (t + 1) = ((walkPos t).2, 2 * (walkPos t).1 + 3 * (walkPos t).2) :=
  Function.iterate_succ_apply' _ _ _

/-- In its 24 moves the walk comes to no lane twice. -/
theorem walkLane_ne : ∀ n < 24, ∀ t < n, walkLane (t + 1) ≠ walkLane (n + 1) := by decide

/-- The walk never comes to lane 0. -/
theorem walkLane_ne_zero : ∀ t < 24, walkLane (t + 1) ≠ 0 := by decide

/-- The table has the moves of the walk as its rows. -/
theorem rhoPiTable_row_is_move : ∀ row ∈ rhoPiTable,
    ∃ t < 24, row = ⟨walkLane (t + 1), walkLane t, rhoOffset t⟩ := by decide

/-- What holds after `n` moves of the walk from the lanes `A`: the lanes it has come to hold the rotated lanes of the
positions before them, no other lane has changed, and it carries the old lane of its position. -/
structure RhoWalk.After (A : Lanes) (n : Nat) (w : RhoWalk) : Prop where
  pos   : (w.x, w.y) = walkPos n
  cur   : w.cur = A[walkLane n]
  moved : ∀ t < n, w.lanes[walkLane (t + 1)] = rotl64 A[walkLane t] (rhoOffset t)
  kept  : ∀ i, (∀ t < n, walkLane (t + 1) ≠ i) → w.lanes[i] = A[i]

theorem setLaneAt_getElem (A : Lanes) (x y : Fin 5) (v : Lane) (i : Fin 25) :
    (setLaneAt A x y v)[i] = if idx x y = i then v else A[i] := by
  simp [setLaneAt, Vector.getElem_set, Fin.ext_iff]

/-- One move more: it comes to a lane that no move before it has changed. -/
theorem RhoWalk.After.move {A : Lanes} {n : Nat} {w : RhoWalk} (h : w.After A n) (hn : n < 24) :
    (rhoMove w n).After A (n + 1) := by
  have hpos : (w.y, 2 * w.x + 3 * w.y) = walkPos (n + 1) := by rw [walkPos_succ, ← h.pos]
  have hidx : idx w.y (2 * w.x + 3 * w.y) = walkLane (n + 1) := by rw [walkLane, ← hpos]
  have hlanes (i : Fin 25) : (rhoMove w n).lanes[i] =
      if walkLane (n + 1) = i then rotl64 A[walkLane n] (rhoOffset n) else w.lanes[i] := by
    rw [← h.cur, ← hidx]
    exact setLaneAt_getElem _ _ _ _ i
  refine ⟨hpos, ?_, fun t ht => ?_, fun i hi => ?_⟩
  · rw [← h.kept _ (walkLane_ne n hn)]
    exact congrArg (fun i : Fin 25 => w.lanes[i]) hidx
  · rw [hlanes]
    rcases Nat.lt_succ_iff_lt_or_eq.mp ht with hlt | rfl
    · rw [if_neg (walkLane_ne n hn t hlt).symm]
      exact h.moved t hlt
    · rw [if_pos rfl]
  · rw [hlanes, if_neg (hi n n.lt_succ_self)]
    exact h.kept i fun t ht => hi t (ht.trans n.lt_succ_self)

theorem rhoWalk_after (A : Lanes) {n : Nat} (hn : n ≤ 24) :
    ((List.range n).foldl rhoMove { x := 1, y := 0, cur := laneAt A 1 0, lanes := A }).After A n := by
  induction n with
  | zero => exact ⟨rfl, rfl, nofun, fun _ _ => rfl⟩
  | succ n ih =>
    rw [List.range_succ, List.foldl_append]
    exact (ih (by omega)).move hn

/-- RHO_PI does what the table says (R86). -/
theorem rhoPi_of_row (A : Lanes) {row : RhoRow} (h : row ∈ rhoPiTable) :
    (rhoPi A)[row.dst] = rotl64 A[row.src] row.r := by
  obtain ⟨t, ht, rfl⟩ := rhoPiTable_row_is_move row h
  exact (rhoWalk_after A (Nat.le_refl 24)).moved t ht

theorem rhoPi_lane_zero (A : Lanes) : (rhoPi A)[(0 : Fin 25)] = A[(0 : Fin 25)] :=
  (rhoWalk_after A (Nat.le_refl 24)).kept 0 walkLane_ne_zero

/-- Settles O29: the row is a move of the walk, and each bit moves as the rotation moves it. -/
theorem rhoPiPhaseMovesByTheTable : Obligations.RhoPiPhaseMovesByTheTable := fun s hp =>
  ⟨_, (exec_toInstr_enabled hp).trans (engineTurn_rhopi hp), rfl, rhoPi_lane_zero s.lanes, fun row hrow b hb =>
    (congrArg (·.getLsbD b) (rhoPi_of_row s.lanes hrow)).trans
      (rotl64_getLsbD s.lanes[row.src] (rhoPiTable_offset row hrow).2 hb)⟩

/-! ### The round-constant register (R90, R91) -/

theorem lfsrStep_bit_one : ∀ r : BitVec 8, (lfsrStep r).getLsbD 1 = r.getLsbD 0 := by decide

/-- The register 17 advances at a time, from the seed to its return after 255: stages short enough to evaluate. -/
theorem lfsrAfter_seventeens : ∀ k < 16, lfsrAfter Config.lfsrSeed (17 * k) =
    [0x01#8, 0x97#8, 0xBC#8, 0x4D#8, 0x4C#8, 0xDB#8, 0x67#8, 0x2A#8, 0x66#8, 0xBD#8, 0xDA#8, 0xF0#8, 0x96#8, 0x2B#8,
     0xF1#8, 0x01#8].getD k 0#8 := by decide

theorem lfsrAfter_seed_255 : lfsrAfter Config.lfsrSeed 255 = Config.lfsrSeed := lfsrAfter_seventeens 15 (by decide)

/-- The register after the 24 rounds of a permutation (R95). -/
theorem lfsrAfter_seed_168 : lfsrAfter Config.lfsrSeed 168 = 0x8E#8 := by
  have h153 : lfsrAfter Config.lfsrSeed 153 = 0xBD#8 := lfsrAfter_seventeens 9 (by decide)
  rw [show 168 = 153 + 15 from rfl, lfsrAfter_add, h153]
  decide

theorem lfsrAfter_seed_properDivisor :
    ∀ d ∈ Nat.properDivisors 255, lfsrAfter Config.lfsrSeed d ≠ Config.lfsrSeed := by
  have hdivs : Nat.properDivisors 255 = {1, 3, 5, 15, 17, 51, 85} := by decide
  have hvalues : ∀ d ∈ [1, 3, 5, 15, 17, 51, 85], lfsrAfter Config.lfsrSeed d ≠ Config.lfsrSeed := by decide
  intro d hd
  exact hvalues d (by simpa [hdivs] using hd)

/-- The period of the register is a divisor of 255 (R91), and no proper one. -/
theorem minimalPeriod_lfsrStep_seed : Function.minimalPeriod lfsrStep Config.lfsrSeed = 255 := by
  have hdvd : Function.minimalPeriod lfsrStep Config.lfsrSeed ∣ 255 :=
    Function.IsPeriodicPt.minimalPeriod_dvd lfsrAfter_seed_255
  by_contra hne
  have hlt := lt_of_le_of_ne (Nat.le_of_dvd (by decide) hdvd) hne
  exact lfsrAfter_seed_properDivisor _ (Nat.mem_properDivisors.mpr ⟨hdvd, hlt⟩) Function.iterate_minimalPeriod

/-- Settles O55: the first values are evaluated; the first return is the period. -/
theorem lfsrSequence : Obligations.LfsrSequence := by
  refine ⟨by decide, fun k hpos hlt => ?_, lfsrAfter_seed_255, fun _ k hr => lfsrAfter_ne_zero hr k,
    lfsrStep_bit_one⟩
  exact Function.not_isPeriodicPt_of_pos_of_lt_minimalPeriod (Nat.ne_of_gt hpos) (minimalPeriod_lfsrStep_seed ▸ hlt)

/-! ### Iota and the round constants (R92, R93, R95) -/

theorem iotaBit_xor (a c : Lane) (r : BitVec 8) (j : Nat) :
    iotaBit (a ^^^ c, r) j = (a ^^^ (iotaBit (c, r) j).1, lfsrStep r) := by
  simp only [iotaBit]
  split
  · rw [BitVec.xor_assoc]
  · rfl

theorem iotaBit_foldl_xor (js : List Nat) (a c : Lane) (r : BitVec 8) :
    (js.foldl iotaBit (a ^^^ c, r)).1 = a ^^^ (js.foldl iotaBit (c, r)).1 := by
  induction js generalizing c r with
  | nil => rfl
  | cons j js ih => rw [List.foldl_cons, iotaBit_xor, ih]; rfl

/-- What iota flips in a lane does not depend on the lane. -/
theorem iotaLane_eq_xor (a : Lane) (r : BitVec 8) : (iotaLane a r).1 = a ^^^ (iotaLane 0#64 r).1 := by
  have h := iotaBit_foldl_xor (List.range 7) a 0#64 r
  rwa [BitVec.xor_zero] at h

/-- The table of R93 is what the register gives on a zero lane, round by round. -/
theorem iotaLane_zero_roundConstant : ∀ i < 24,
    (iotaLane 0#64 (lfsrAfter Config.lfsrSeed (7 * i))).1 = roundConstants.getD i 0#64 := by decide

theorem iotaLane_roundConstant (a : Lane) {i : Nat} (hi : i < 24) :
    (iotaLane a (lfsrAfter Config.lfsrSeed (7 * i))).1 = a ^^^ roundConstants.getD i 0#64 := by
  rw [iotaLane_eq_xor, iotaLane_zero_roundConstant i hi]

/-- KECCAK_F leaves the register where its 24 times seven advances take it (R95). -/
theorem keccakFull_reg (A : Lanes) : (keccakFull A).2 = 0x8E#8 :=
  (keccakRound_iterate_reg 24 _).trans lfsrAfter_seed_168

/-- Settles O56: the register of each round gives the round's constant, and its advances do not depend on the lanes. -/
theorem registerAndTableAgree : Obligations.RegisterAndTableAgree :=
  ⟨keccakFull_reg, fun A _ hi => congrArg (A.set 0) (iotaLane_roundConstant A[0] hi)⟩

end Sys2Proof.Machine
end

section
/-! PROOFS. The phase IOTA and the net effect of ABSORB and of PERMUTE (42_commands.md R132, R134, R142, R146). -/

namespace Sys2Proof.Machine

variable {s : State}

/-! ### The phase IOTA (R142) -/

theorem exec_phaseIota (hp : s.phase = .iota) (hr : s.rnd.toNat ≤ 23) : exec .phaseIota s = .next s.iotaDone :=
  (exec_toInstr_enabled hp).trans (engineTurn_iota hp hr)

theorem State.iotaDone_eq (s : State) : s.iotaDone =
    { s with lanes := s.iotaDone.lanes, r := s.iotaDone.r, rnd := s.iotaDone.rnd, phase := s.iotaDone.phase } := by
  apply State.ext <;> simp [State.iotaDone]

theorem State.iotaDone_lane_ne (s : State) {i : Fin 25} (hi : i ≠ 0) : s.iotaDone.lanes[i] = s.lanes[i] := by
  rw [← iota_lane_ne s.lanes s.r hi]
  exact congrArg (fun A : Lanes => A[i]) State.iotaDone_lanes

theorem State.iotaDone_lane_zero (s : State) :
    s.iotaDone.lanes[(0 : Fin 25)] = (iotaLane s.lanes[(0 : Fin 25)] s.r).1 := by
  rw [← iota_lane_zero]
  exact congrArg (fun A : Lanes => A[(0 : Fin 25)]) State.iotaDone_lanes

theorem State.iotaDone_last (h : s.rnd.toNat = 23) :
    s.iotaDone.rnd = s.rnd ∧ s.iotaDone.phase = if s.pend.op = opFinal then .sqz else .idle := by
  have hlt : ¬ s.rnd.toNat < 23 := by omega
  by_cases ho : s.pend.op = opFinal
  · rw [State.iotaDone_squeeze hlt ho, if_pos ho]
    exact ⟨rfl, rfl⟩
  · rw [State.iotaDone_end hlt ho, if_neg ho]
    exact ⟨rfl, rfl⟩

/-- Settles O32: the lanes and the register bit by bit, and the round loop below round 23 and in it. -/
theorem iotaPhase : Obligations.IotaPhase := by
  intro s hp hr
  refine ⟨_, exec_phaseIota hp hr, s.iotaDone_eq, fun b hb => ?_, fun i hi => s.iotaDone_lane_ne hi, State.iotaDone_r,
    fun hlt => ?_, State.iotaDone_last⟩
  · rw [State.iotaDone_lane_zero]
    exact (iotaBit_foldl _ _ hb).2
  · rw [State.iotaDone_next hlt]
    exact ⟨rnd_succ hlt, rfl⟩

/-- Settles O33: by the invariant the register of round `RND` stands where the table's entry comes from. -/
theorem iotaInjectsTheRoundConstant : Obligations.IotaInjectsTheRoundConstant := by
  intro s hinv hp
  have hr := hinv.rndRange
  refine ⟨_, exec_phaseIota hp hr, ?_⟩
  rw [State.iotaDone_lane_zero, hinv.regRound (by rw [hp]; rfl), iotaLane_roundConstant _ (by omega)]

/-! ### A command and its turns (R132, R134) -/

/-- A command's turns begin with the write of its word (30_encoding.md R68). -/
theorem commandTurns_command {i : Instr} {w : Word} (h : encode i = .command w) (k : Nat) :
    commandTurns i k = .host (.write 0x200#10 4 (w.setWidth 64)) :: List.replicate k .engine := by
  rw [commandTurns, cmdLines_command h]
  rfl

/-- The first step of a command's turns issues it; the sequencer's turns are left. -/
theorem run_commandTurns {i : Instr} {k : Nat} {ts : List Turn} (hi : isCommand i = true) (hw : i.wf = true)
    (hp : s.phase = .idle) (hts : s.turns = commandTurns i k ++ ts) (m : Nat) :
    s.run (m + 1) = (State.issued { s with turns := List.replicate k .engine ++ ts } i).run m := by
  obtain ⟨w, he, hd⟩ := encode_command hi hw
  rw [commandTurns_command he] at hts
  exact run_succ (step_issue hd (BitVec.setWidth_setWidth_of_le w (by decide)) hts hp)

/-- XOR and the 24 rounds of ABSORB or FINAL: ABSORB_BLOCK of the block the command absorbs (41_sponge.md R114). -/
theorem run_absorbBlock {b : Block} {ts : List Turn} (hts : s.turns = List.replicate 97 .engine ++ ts)
    (hp : s.phase = .xor) (hb : s.xorOperand = .ok b) (hr : s.r = Config.lfsrSeed) (hrnd : s.rnd = 0#5) :
    s.run 97 = .next { s with
      lanes := absorbBlock s.lanes b, r := 0x8E#8, rnd := 23#5
      phase := if s.pend.op = opFinal then .sqz else .idle, turns := ts } := by
  rw [run_succ (step_xor (ts := List.replicate 96 .engine ++ ts) hts hp hb), State.xored_eq,
    ← keccakFull_reg (xorBlock s.lanes (lanes17 b))]
  exact run_keccakF rfl rfl hr hrnd

/-- Settles O40: the issue, then the 24 rounds. -/
theorem permuteNetEffect : Obligations.PermuteNetEffect := by
  intro s ts hp hts
  rw [run_commandTurns rfl rfl hp hts, run_keccakF (ts := ts) rfl rfl rfl rfl, keccakFull_reg]
  cases s
  cases hp
  rfl

/-- Settles O38: the issue, XOR of `BLK`, then the 24 rounds. -/
theorem absorbNetEffect : Obligations.AbsorbNetEffect := by
  intro s ts hp hts
  rw [run_commandTurns rfl rfl hp hts,
    run_absorbBlock (ts := ts) rfl rfl (State.xorOperand_absorb rfl) rfl rfl]
  cases s
  cases hp
  rfl

end Sys2Proof.Machine
end

section
/-! PROOFS. Padding and the phase XOR (41_sponge.md R110 to R119; 42_commands.md R138). -/

namespace Sys2Proof.Machine

variable {s : State}

/-! ### The padded message (R110, R111, R119) -/

/-- Below the message's length a padded message is the message. -/
theorem pad_getD_message (M : List Byte) {p : Nat} (hp : p < M.length) : (pad M).getD p 0x00#8 = M.getD p 0x00#8 := by
  have hn : numBlocks M.length = M.length / 136 + 1 := rfl
  rw [pad_getD M (by omega), if_pos hp, if_neg (by omega), if_neg (by omega), BitVec.or_zero, BitVec.or_zero]

/-- A padded message begins with the message. -/
theorem take_pad (M : List Byte) : (pad M).take M.length = M := by
  have hn : numBlocks M.length = M.length / 136 + 1 := rfl
  have hlen : M.length ≤ (pad M).length := by rw [pad_length]; omega
  refine List.ext_getElem (by rw [List.length_take, Nat.min_eq_left hlen]) fun p _ hp => ?_
  have hbyte := pad_getD_message M hp
  rw [List.getD_eq_getElem _ _ (by omega), List.getD_eq_getElem _ _ hp] at hbyte
  rw [List.getElem_take, hbyte]

/-- Settles O57: the padded length is `136 * (L / 136 + 1)`. -/
theorem paddedLength : Obligations.PaddedLength := by
  intro M
  have hn : numBlocks M.length = M.length / 136 + 1 := rfl
  have hlen := pad_length M
  exact ⟨by omega, by omega, by omega, take_pad M, by omega, pad_length_div M⟩

/-- Settles O58: a block before the last ends inside the message; the last is the rest of the message, padded. -/
theorem blocksOfAPaddedMessage : Obligations.BlocksOfAPaddedMessage := by
  intro M
  refine ⟨fun k hk i => ?_, fun b hb => blockAt_pad_last fun i hi => hb ⟨i, hi⟩⟩
  rw [Fin.getElem_fin, blockAt, Vector.getElem_ofFn, pad_getD_message M (by omega)]

/-! ### The phase XOR (R112, R113, R138) -/

/-- A byte of a rate lane after XOR_BLOCK of a block (R112, R113). -/
theorem byteOf_xorBlock_lanes17 (A : Lanes) (b : Block) {i : Fin 25} {k : Nat} (hi : i.val < 17) (hk : k < 8) :
    byteOf (xorBlock A (lanes17 b))[i] k = byteOf A[i] k ^^^ b[8 * i.val + k] := by
  rw [xorBlock_rate A _ hi, byteOf_xor, byteOf_lanes17 b hi hk]

theorem exec_phaseXor {b : Block} (hp : s.phase = .xor) (hb : s.xorOperand = .ok b) :
    exec .phaseXor s = .next (s.xored b) :=
  (exec_toInstr_enabled hp).trans (engineTurn_xor hp hb)

/-- Settles O26: the block absorbed is `BLK`. -/
theorem xorPhaseAbsorbsTheBlock : Obligations.XorPhaseAbsorbsTheBlock := by
  intro s hp ho
  refine ⟨_, exec_phaseXor hp (State.xorOperand_absorb ho), s.xored_eq _, fun i k hi hk => ?_,
    fun i hi => xorBlock_capacity _ _ hi⟩
  rw [← block_getElem s (by omega)]
  exact byteOf_xorBlock_lanes17 s.lanes s.block hi hk

/-- Settles O27: the block absorbed is PADBLOCK of `BLK`. -/
theorem xorPhasePadsTheFinalBlock : Obligations.XorPhasePadsTheFinalBlock := by
  intro s hp ho hn
  refine ⟨_, exec_phaseXor hp (State.xorOperand_final ho hn), s.xored_eq _, fun i k hi hk => ?_,
    fun i hi => xorBlock_capacity _ _ hi⟩
  rw [← block_getElem s (by omega), ← padBlock_getElem s.block (by omega) hn]
  exact byteOf_xorBlock_lanes17 s.lanes _ hi hk

/-! ### FINAL and SQUEEZE (R114 to R116; 42_commands.md R133, R135, R143) -/

/-- One step more of a run that has reached SQZ: the digest of the lanes in `DOUT`, and nothing else. -/
theorem run_sqz {u : State} {k : Nat} {ts : List Turn} (hrun : s.run k = .next u) (hts : u.turns = .engine :: ts)
    (hp : u.phase = .sqz) : ∃ t, s.run (k + 1) = .next t ∧
      t = { u with mem := t.mem, phase := .idle, turns := ts } ∧ t.dout = squeezeOut u.lanes ∧
      ∀ a, a < 0x100 ∨ 0x120 ≤ a → t.mem.read a = u.mem.read a := by
  refine ⟨State.squeezed { u with turns := ts }, ?_, ?_, State.dout_squeezed _,
    fun _ ha => State.squeezed_outside _ ha⟩
  · rw [run_add hrun, run_one (step_sqz hts hp)]
  · rw [State.squeezed_eq]

/-- Settles O39: the issue, XOR and the 24 rounds as for ABSORB but of the padded block, then SQZ. -/
theorem finalNetEffect : Obligations.FinalNetEffect := by
  intro s n ts hp hn hts
  have hwf : (Instr.final n).wf = true := decide_eq_true hn
  have habsorb : s.run 98 = .next { s with
      lanes := absorbBlock s.lanes (padBlock s.block n.toNat), r := 0x8E#8, rnd := 23#5
      pend := { op := opFinal, n := n }, phase := .sqz, turns := .engine :: ts } := by
    rw [run_commandTurns rfl hwf hp hts,
      run_absorbBlock (ts := .engine :: ts) rfl rfl (State.xorOperand_final rfl hn) rfl rfl]
    rfl
  obtain ⟨t, hrun, ht, hdout, hmem⟩ := run_sqz habsorb rfl rfl
  have hlanes : t.lanes = absorbBlock s.lanes (padBlock s.block n.toNat) := by rw [ht]
  refine ⟨t, hrun, ?_, by rw [hdout, hlanes], hmem⟩
  cases s
  cases hp
  exact ht

/-- Settles O41: the issue, then SQZ. -/
theorem squeezeNetEffect : Obligations.SqueezeNetEffect := by
  intro s ts hp hts
  obtain ⟨t, hrun, ht, hdout, hmem⟩ := run_sqz (k := 1) (run_commandTurns rfl rfl hp hts 0) rfl rfl
  refine ⟨t, hrun, ?_, hdout, hmem⟩
  cases s
  cases hp
  exact ht

end Sys2Proof.Machine
end

section
/-! PROOFS. The hash program as turns (42_commands.md R136, R146): one of the schedules of the hash program with its
polls, the one in which every poll finds the engine idle at once. -/

namespace Sys2Proof.Machine

variable {s t : State}

/-! ### Steps of the pair of agents -/

/-- The agents with the host at place `p` of the script `S`, the names `n` read, beside the engine `s`. -/
def agentsAt (S : List Line) (p : Nat) (n : List (String × BitVec 64)) (s : State) : System where
  host := { script := S, pc := p, names := n }
  engine := s

section AgentsAt
variable {S : List Line} {p : Nat} {n : List (String × BitVec 64)}

theorem agentsAt_wr {w : Width} {off : Offset} {v : BitVec 64} (hl : S[p]? = some (.wr w off v))
    (h : memWrite off w.bytes v s = .next t) : (agentsAt S p n s).step .host = .next (agentsAt S (p + 1) n t) := by
  simp only [System.step, System.hostStep, agentsAt, hl, h]
  rfl

theorem agentsAt_rd {w : Width} {off : Offset} {name : String} (hl : S[p]? = some (.rd w off name))
    (h : legal off w.bytes .read = true) : (agentsAt S p n s).step .host =
      .next (agentsAt S (p + 1) ((name, readValue s off w.bytes) :: n) s) := by
  simp only [System.step, System.hostStep, agentsAt, hl, memRead_legal h]
  rfl

theorem agentsAt_label {l : String} (hl : S[p]? = some (.label l)) :
    (agentsAt S p n s).step .host = .next (agentsAt S (p + 1) n s) := by
  simp only [System.step, System.hostStep, agentsAt, hl]
  rfl

/-- A jump that is not taken. -/
theorem agentsAt_ifGoto {name l : String} {b : Nat} {v : Bool} {x : BitVec 64} (hl : S[p]? = some (.ifGoto name b v l))
    (h : x.getLsbD b ≠ v) : (agentsAt S p ((name, x) :: n) s).step .host =
      .next (agentsAt S (p + 1) ((name, x) :: n) s) := by
  simp only [System.step, System.hostStep, agentsAt, hl, HostAgent.value, List.find?_cons, beq_self_eq_true, if_neg h]
  rfl

/-- The line between `pre` and `post`. -/
theorem getElem?_between (pre post : List Line) (x : Line) : (pre ++ [x] ++ post)[pre.length]? = some x := by simp

theorem agentsAt_engineTurns {k : Nat} (h : engineTurns k s = .next t) :
    System.run (List.replicate k .sequencer) (agentsAt S p n s) = .next (agentsAt S p n t) := by
  induction k generalizing s with
  | zero => rw [next_inj h]; rfl
  | succ k ih =>
    obtain ⟨v, hv, hk⟩ := engineTurns_next h
    rw [List.replicate_succ, System.run_cons (System.step_sequencer hv)]
    exact ih hk
end AgentsAt

/-! ### Lines replayed by turns -/

/-- Under some schedule the lines `ls`, wherever they stand in a script, take an idle engine to the idle state to which
the turns `L` take it, and no turn adds to the values read. -/
def Replays (ls : List Line) (L : List Turn) : Prop :=
  ∀ (pre post : List Line) (n : List (String × BitVec 64)) (s : State), s.phase = .idle →
    ∃ (sched : List Agent) (n' : List (String × BitVec 64)) (t : State), t.phase = .idle ∧
      t.reads = s.reads ∧ System.run sched (agentsAt (pre ++ ls ++ post) pre.length n s) =
        .next (agentsAt (pre ++ ls ++ post) (pre.length + ls.length) n' t) ∧
      ∀ ts, State.run L.length { s with turns := L ++ ts } = .next { t with turns := ts }

theorem Replays.nil : Replays [] [] := fun _ _ n s hp => ⟨[], n, s, hp, rfl, rfl, fun _ => rfl⟩

theorem Replays.append {l1 l2 : List Line} {L1 L2 : List Turn} (h1 : Replays l1 L1) (h2 : Replays l2 L2) :
    Replays (l1 ++ l2) (L1 ++ L2) := by
  intro pre post n s hp
  obtain ⟨as, n', u, hu, hreads1, hsys1, hrun1⟩ := h1 pre (l2 ++ post) n s hp
  obtain ⟨bs, n'', t, ht, hreads2, hsys2, hrun2⟩ := h2 (pre ++ l1) post n' u hu
  simp only [List.append_assoc, List.length_append, Nat.add_assoc] at hsys1 hsys2 ⊢
  refine ⟨as ++ bs, n'', t, ht, hreads2.trans hreads1, (System.run_append hsys1).trans hsys2, fun ts => ?_⟩
  rw [run_add (hrun1 (L2 ++ ts)), hrun2]

theorem Replays.range_flatMap {ls : Nat → List Line} {L : Nat → List Turn} {n : Nat}
    (h : ∀ i < n, Replays (ls i) (L i)) : Replays ((List.range n).flatMap ls) ((List.range n).flatMap L) := by
  induction n with
  | zero => exact Replays.nil
  | succ n ih =>
    rw [List.range_succ, List.flatMap_append, List.flatMap_append, List.flatMap_singleton, List.flatMap_singleton]
    exact (ih fun i hi => h i (by omega)).append (h n (by omega))

/-! ### The writes of a block (30_encoding.md R68) -/

/-- A naturally aligned write inside `BLK`. -/
theorem Replays.write {w : Width} {m : Nat} (hm : m + w.bytes ≤ 136) (ha : m % w.bytes = 0) (v : BitVec 64) :
    Replays [.wr w (BitVec.ofNat 10 m) v] (Line.wr w (BitVec.ofNat 10 m) v).turns := by
  intro pre post n s hp
  have hpos : 0 < w.bytes := by cases w <;> decide
  have hoff : (BitVec.ofNat 10 m).toNat = m := by simp; omega
  have hacc : byteAccess (BitVec.ofNat 10 m) w.bytes = true :=
    byteAccess_iff.mpr ⟨by cases w <;> decide, by rw [hoff, ha]⟩
  have hw (ts : List Turn) := memWrite_blk_idle (s := { s with turns := ts }) hp (by omega) hacc v
  refine ⟨[.host], n, { s with mem := s.mem.writeBytes (BitVec.ofNat 10 m).toNat (bytesOf w.bytes v) }, hp, rfl,
    System.run_cons (agentsAt_wr (getElem?_between pre post _) (hw s.turns)),
    fun ts => run_one ?_⟩
  exact (step_host (a := .write (BitVec.ofNat 10 m) w.bytes v) (ts := ts) rfl).trans (hw ts)

/-- Writes inside `BLK`, one for each number below `n`. -/
theorem Replays.writes {w : Width} {m : Nat → Nat} {v : Nat → BitVec 64} {n : Nat}
    (h : ∀ i < n, m i + w.bytes ≤ 136 ∧ m i % w.bytes = 0) :
    Replays ((List.range n).map fun i => .wr w (BitVec.ofNat 10 (m i)) (v i))
      (lineTurns ((List.range n).map fun i => .wr w (BitVec.ofNat 10 (m i)) (v i))) := by
  rw [lineTurns, List.flatMap_map, List.map_eq_flatMap]
  exact Replays.range_flatMap fun i hi => Replays.write (h i hi).1 (h i hi).2 (v i)

/-- The whole lanes of a block, then the bytes that are left. -/
theorem Replays.writeBlock {bs : List Byte} (hlen : bs.length ≤ 136) :
    Replays (blkLines bs) (lineTurns (blkLines bs)) := by
  have hwords := Replays.writes (w := .w64) (m := fun i => 8 * i) (n := bs.length / 8)
    (v := fun i => leValue 8 fun k => bs.getD (8 * i + k) 0x00#8)
    fun i hi => ⟨show 8 * i + 8 ≤ 136 by omega, Nat.mul_mod_right 8 i⟩
  have hrest := Replays.writes (w := .w8) (m := fun j => 8 * (bs.length / 8) + j) (n := bs.length % 8)
    (v := fun j => (bs.getD (8 * (bs.length / 8) + j) 0x00#8).setWidth 64)
    fun j hj => ⟨show 8 * (bs.length / 8) + j + 1 ≤ 136 by omega, Nat.mod_one _⟩
  rw [blkLines, lineTurns, List.flatMap_append]
  exact hwords.append hrest

/-! ### A command and its wait (30_encoding.md R68) -/

/-- Listed turns of the sequencer as steps. -/
theorem run_engineTurns {k : Nat} {ts : List Turn} (h : engineTurns k s = .next t) :
    State.run k { s with turns := List.replicate k .engine ++ ts } = .next { t with turns := ts } := by
  induction k generalizing s with
  | zero => rw [next_inj h]; rfl
  | succ k ih =>
    obtain ⟨v, hv, hk⟩ := engineTurns_next h
    have hstep : step { s with turns := List.replicate (k + 1) .engine ++ ts } =
        .next { v with turns := List.replicate k .engine ++ ts } := by
      rw [step_engine (ts := List.replicate k .engine ++ ts) rfl, engineTurn_setTurns hv]
    rw [run_succ hstep, ih hk]

/-- A command's turns, if the sequencer's lead from its issue to `t`. -/
theorem run_command {i : Instr} {k : Nat} {ts : List Turn} (hi : isCommand i = true) (hw : i.wf = true)
    (hp : s.phase = .idle) (h : engineTurns k (s.issued i) = .next t) :
    State.run (k + 1) { s with turns := commandTurns i k ++ ts } = .next { t with turns := ts } := by
  have hissued : State.run k (State.issued { s with turns := List.replicate k .engine ++ ts } i) =
      .next { t with turns := ts } := by rw [State.issued_setTurns, run_engineTurns h]
  exact (run_commandTurns (s := { s with turns := commandTurns i k ++ ts }) hi hw hp rfl k).trans hissued

theorem commandTurns_length {i : Instr} (hi : isCommand i = true) (hw : i.wf = true) (k : Nat) :
    (commandTurns i k).length = k + 1 := by
  obtain ⟨w, he, -⟩ := encode_command hi hw
  rw [commandTurns_command he, List.length_cons, List.length_replicate]

/-- A wait beside an idle engine: the first poll ends it. -/
theorem Replays.wait (l : String) : Replays (waitLines l) [] := by
  intro pre post n s hp
  have hbit : (readValue s 0x204#10 4).getLsbD 0 ≠ true := by
    rw [readValue_status_busy, s.busy_eq_false.mpr hp]
    decide
  have h1 := agentsAt_label (S := pre ++ waitLines l ++ post) (p := pre.length) (n := n) (s := s) (l := l)
    (by simp [waitLines])
  have h2 := agentsAt_rd (S := pre ++ waitLines l ++ post) (p := pre.length + 1) (n := n) (s := s) (w := .w32)
    (off := 0x204#10) (name := "s") (by simp [waitLines]) (by decide)
  have h3 := agentsAt_ifGoto (S := pre ++ waitLines l ++ post) (p := pre.length + 2) (n := n) (s := s) (l := l)
    (name := "s") (by simp [waitLines]) hbit
  exact ⟨[.host, .host, .host], _, s, hp, rfl,
    (System.run_cons h1).trans ((System.run_cons h2).trans (System.run_cons h3)), fun _ => rfl⟩

/-- A command that takes `k` turns of the sequencer, and its wait. -/
theorem Replays.command {i : Instr} {k : Nat} (l : String) (hi : isCommand i = true) (hw : i.wf = true)
    (h : ∀ s : State, ∃ t, engineTurns k (s.issued i) = .next t ∧ t.phase = .idle ∧ t.reads = s.reads) :
    Replays (cmdLines i ++ waitLines l) (commandTurns i k) := by
  rw [← List.append_nil (commandTurns i k)]
  refine Replays.append ?_ (Replays.wait l)
  intro pre post n s hp
  obtain ⟨w, he, hd⟩ := encode_command hi hw
  obtain ⟨t, hk, ht, hreads⟩ := h s
  have hword : (w.setWidth 64).setWidth 32 = w := BitVec.setWidth_setWidth_of_le w (by decide)
  have hissue : memWrite 0x200#10 4 (w.setWidth 64) s = .next (s.issued i) :=
    (memWrite_command (by rw [hword, hd]) s).trans (exec_command_idle hi hw hp)
  refine ⟨.host :: List.replicate k .sequencer, n, t, ht, hreads, ?_, fun ts => ?_⟩
  · rw [cmdLines_command he, System.run_cons (agentsAt_wr (w := .w32) (getElem?_between pre post _) hissue)]
    exact agentsAt_engineTurns hk
  · rw [commandTurns_length hi hw, run_command hi hw hp hk]

/-! ### The hash program (42_commands.md R136) -/

/-- The hash program up to its reads of the digest, as turns. -/
theorem Replays.hash (M : List Byte) : ∃ ls L, hashProgram M = ls ++ digestLines ∧
    hashTurns M = L ++ lineTurns digestLines ∧ Replays ls L := by
  have hblock (k : Nat) : (messageBlock M k).length ≤ 136 := by rw [messageBlock_length]; omega
  have hn : (BitVec.ofNat 8 (M.length % 136)).toNat ≤ 135 := by simp; omega
  have hinit : Replays (cmdLines .init ++ waitLines "i") (commandTurns .init 1) :=
    Replays.command "i" rfl rfl fun s => ⟨_, engineTurns_init s, State.cleared_phase, State.cleared_reads⟩
  have habsorb (k : Nat) : Replays (cmdLines .absorb ++ waitLines ("b" ++ toString k)) (commandTurns .absorb 97) := by
    refine Replays.command _ rfl rfl fun s => ?_
    obtain ⟨r, hr⟩ := engineTurns_absorb s
    exact ⟨_, hr, rfl, rfl⟩
  have hfinal : Replays (cmdLines (finalOf M) ++ waitLines "f") (commandTurns (finalOf M) 98) := by
    refine Replays.command _ rfl (finalOf_wf M) fun s => ?_
    obtain ⟨r, hr⟩ := engineTurns_final s hn
    exact ⟨_, hr, State.squeezed_phase, State.squeezed_reads⟩
  have hblocks := Replays.range_flatMap (n := M.length / 136)
    fun k _ => (Replays.writeBlock (hblock k)).append (habsorb k)
  have hrest := Replays.writeBlock (hblock (M.length / 136))
  refine ⟨_, _, ?_, ?_, ((hinit.append hblocks).append hrest).append hfinal⟩
  · simp only [hashProgram, List.append_assoc]
  · simp only [hashTurns, List.append_assoc]

/-- The digest's four reads as lines: the names hold its words. -/
theorem agentsAt_digest (pre : List Line) (n : List (String × BitVec 64)) (s : State) :
    System.run [.host, .host, .host, .host] (agentsAt (pre ++ digestLines) pre.length n s) =
      .next (agentsAt (pre ++ digestLines) (pre ++ digestLines).length
        (digestWords.map (fun x => (x.1, readValue s x.2 8)) ++ n) s) := by
  have hline (j : Nat) : (pre ++ digestLines)[pre.length + j]? = digestLines[j]? := by
    rw [List.getElem?_append_right (Nat.le_add_right _ _), Nat.add_sub_cancel_left]
  have hread (j : Nat) (x : String × Offset) (hx : digestLines[j]? = some (.rd .w64 x.2 x.1))
      (hr : legal x.2 8 .read = true) (n' : List (String × BitVec 64)) :
      (agentsAt (pre ++ digestLines) (pre.length + j) n' s).step .host =
        .next (agentsAt (pre ++ digestLines) (pre.length + j + 1) ((x.1, readValue s x.2 8) :: n') s) :=
    agentsAt_rd (w := .w64) ((hline j).trans hx) hr
  rw [List.length_append]
  exact (System.run_cons (hread 0 ("d0", 0x100#10) rfl (by decide) n)).trans <|
    (System.run_cons (hread 1 ("d1", 0x108#10) rfl (by decide) _)).trans <|
    (System.run_cons (hread 2 ("d2", 0x110#10) rfl (by decide) _)).trans <|
    System.run_cons (hread 3 ("d3", 0x118#10) rfl (by decide) _)

/-- The digest's four reads as turns. -/
theorem run_digest (s : State) : State.run 4 { s with turns := lineTurns digestLines } = .next { s with
    turns := [], reads := digestWords.map (fun x => readValue s x.2 8) ++ s.reads } := by
  have hr (off : Offset) (ts : List Turn) (rs : List (BitVec 64)) (hl : legal off 8 .read = true) :
      step { s with turns := .host (.read off 8) :: ts, reads := rs } =
        .next { s with turns := ts, reads := readValue s off 8 :: rs } := by
    rw [step_host rfl, hostAccess, memRead_legal hl]
    rfl
  exact (run_succ (hr 0x100#10 _ _ (by decide))).trans <| (run_succ (hr 0x108#10 _ _ (by decide))).trans <|
    (run_succ (hr 0x110#10 _ _ (by decide))).trans <| run_one (hr 0x118#10 [] _ (by decide))

/-- Settles O43: the turns take the engine where the hash program with its polls takes it under one schedule, and so to
the digest. -/
theorem hashByCommandsIsHash : Obligations.HashByCommandsIsHash := by
  intro s M hp hts
  obtain ⟨ls, L, hprog, hturns, hreplays⟩ := Replays.hash M
  obtain ⟨sched, n, t, ht, hreads, hsys, hrun⟩ := hreplays [] digestLines [] s hp
  rw [List.nil_append, ← hprog, List.length_nil, Nat.zero_add] at hsys
  have hdigest := agentsAt_digest ls n t
  rw [← hprog] at hdigest
  obtain ⟨y, hy, hfinished⟩ := (hashProgramUnderEverySchedule s M hp).1 (sched ++ [.host, .host, .host, .host])
  cases ((System.run_append hsys).trans hdigest).symm.trans hy
  obtain ⟨hdout, -, hstatus, hbytes⟩ := hfinished rfl
  have hend : s.run (hashTurns M).length = .next { t with
      turns := [], reads := digestWords.map (fun x => readValue t x.2 8) ++ t.reads } := by
    rw [hturns] at hts ⊢
    rw [List.length_append]
    cases s
    cases hts
    exact (run_add (hrun (lineTurns digestLines))).trans (run_digest t)
  refine ⟨_, hend, hdout, ht, rfl, hstatus, _, _, _, _, by rw [hreads]; rfl, fun k => ?_⟩
  simpa [HostAgent.value, agentsAt, digestWords] using hbytes k

end Sys2Proof.Machine
end

section
/-! PROOFS. The commands' issue, the phases but XOR, RHOPI and IOTA, the net effect of INIT, and a command's progress
(42_commands.md R130, R131, R137, R139, R141, R143 to R146). -/

namespace Sys2Proof.Machine

variable {s : State}

/-! ### The issue of a command (R130) -/

/-- Settles O21: INIT is well formed, so an idle engine issues it. -/
theorem initIsIssued : Obligations.InitIsIssued := fun _ hp => exec_command_idle rfl rfl hp

/-- Settles O22: FINAL is well formed for the lengths given, the other two always. -/
theorem permutingCommandsAreIssued : Obligations.PermutingCommandsAreIssued := fun _ hp =>
  ⟨exec_command_idle rfl rfl hp, fun _ hn => exec_command_idle rfl (decide_eq_true hn) hp, exec_command_idle rfl rfl hp⟩

/-- Settles O23: SQUEEZE is well formed, so an idle engine issues it. -/
theorem squeezeIsIssued : Obligations.SqueezeIsIssued := fun _ hp => exec_command_idle rfl rfl hp

/-! ### The phases IDLE and CLR (R137, R144) -/

/-- Settles O35: the row, a listed turn and a step without a listed turn are all the sequencer's turn. -/
theorem idlePhaseKeepsTheState : Obligations.IdlePhaseKeepsTheState := fun s hp =>
  ⟨(exec_toInstr_enabled hp).trans (engineTurn_idle hp), (State.byEngine_eq s).trans (engineTurn_idle hp),
    fun hts => (step_idle_list hts).trans (engineTurn_idle hp)⟩

theorem State.cleared_lane (s : State) (i : Fin 25) : s.cleared.lanes[i] = 0#64 := by
  simp [zeroLanes]

theorem State.cleared_dout_byte (s : State) (j : Fin 32) : s.cleared.dout[j] = 0x00#8 := by
  simp [State.dout_cleared]

/-- Settles O25: CLR's next state, its lanes, its `DOUT` and the bytes outside `DOUT`. -/
theorem clrPhaseZeroes : Obligations.ClrPhaseZeroes := fun s hp =>
  ⟨_, (exec_toInstr_enabled hp).trans (engineTurn_clr hp), by rw [State.cleared_eq], s.cleared_lane,
    s.cleared_dout_byte, fun _ ha => s.cleared_outside ha⟩

/-! ### The phases THETA and CHI (R139, R141; 40_permutation.md R84, R89) -/

/-- A bit of a column parity is the parity of the column at that bit (40_permutation.md R84). -/
theorem thetaC_getLsbD (A : Lanes) (x : Fin 5) (b : Nat) : (thetaC A x).getLsbD b =
    ((laneAt A x 0).getLsbD b ^^ (laneAt A x 1).getLsbD b ^^ (laneAt A x 2).getLsbD b ^^
      (laneAt A x 3).getLsbD b ^^ (laneAt A x 4).getLsbD b) := by
  simp only [thetaC, BitVec.getLsbD_xor]

/-- A bit of theta's mask: the left column's parity there and the right column's one bit below. -/
theorem thetaD_getLsbD (A : Lanes) (x : Fin 5) {b : Nat} (hb : b < 64) : (thetaD A x).getLsbD b =
    ((thetaC A (x + 4)).getLsbD b ^^ (thetaC A (x + 1)).getLsbD ((b + 63) % 64)) := by
  rw [thetaD, BitVec.getLsbD_xor, rotl64_getLsbD _ (by decide) hb]
  rfl

/-- Settles O28: theta flips a lane by its column's mask, which is two parities. -/
theorem thetaPhase : Obligations.ThetaPhase := by
  intro s hp
  refine ⟨_, (exec_toInstr_enabled hp).trans (engineTurn_theta hp), rfl, fun x y b hb => ?_⟩
  rw [laneAt_theta, BitVec.getLsbD_xor, thetaD_getLsbD _ _ hb, thetaC_getLsbD, thetaC_getLsbD, ← Bool.xor_assoc]

/-- Settles O31: chi combines each lane with two of its own row, bit by bit. -/
theorem chiPhase : Obligations.ChiPhase := by
  intro s hp
  refine ⟨_, (exec_toInstr_enabled hp).trans (engineTurn_chi hp), rfl, fun x y b hb => ?_⟩
  rw [laneAt_chi, BitVec.getLsbD_xor, BitVec.getLsbD_and, BitVec.getLsbD_not, decide_eq_true hb, Bool.true_and]

/-! ### The phase SQZ (R143; 41_sponge.md R115, R116) -/

/-- Byte `8i + k` of the digest is byte `k` of lane `i`. -/
theorem squeezeOut_getElem (A : Lanes) {i : Fin 25} {k : Nat} (hi : i.val < 4) (hk : k < 8) :
    (squeezeOut A)[8 * i.val + k] = byteOf A[i] k := by
  have hlane : (8 * i.val + k) / 8 = i.val := by omega
  have hbyte : (8 * i.val + k) % 8 = k := by omega
  simp [squeezeOut, bytesOfLanes, hlane, hbyte]

/-- Settles O34: SQZ's next state holds the digest in `DOUT`, whose bytes are those of the lanes. -/
theorem sqzPhaseCopiesTheDigest : Obligations.SqzPhaseCopiesTheDigest := by
  intro s hp
  refine ⟨_, (exec_toInstr_enabled hp).trans (engineTurn_sqz hp), by rw [State.squeezed_eq], fun i k hi hk => ?_,
    fun _ ha => s.squeezed_outside ha⟩
  rw [State.squeezed_mem, Nat.add_assoc, read_writeDout _ _ (by omega), squeezeOut_getElem _ hi hk]

/-! ### The net effect of INIT (R131) -/

/-- The issue of INIT by an idle engine and the phase CLR replace these fields and no other. -/
theorem State.cleared_issued_init (hp : s.phase = .idle) : (s.issued .init).cleared = { s with
    lanes := (s.issued .init).cleared.lanes, mem := (s.issued .init).cleared.mem
    errCmd := false, errBusy := false, errAcc := false, pend := { op := opInit, n := 0#8 } } := by
  apply State.ext <;> simp [State.issued, hp]

/-- Settles O37: the issue, then CLR. -/
theorem initNetEffect : Obligations.InitNetEffect := by
  intro s ts hp hts
  have hrun : s.run 2 = .next (State.issued { s with turns := ts } .init).cleared := by
    rw [run_commandTurns rfl rfl hp hts]
    exact run_one (step_clr rfl rfl)
  exact ⟨_, hrun, State.cleared_issued_init (s := { s with turns := ts }) hp, State.cleared_lane _,
    State.cleared_dout_byte _, fun _ ha => State.cleared_outside _ ha⟩

/-! ### A command in flight (R145, R146) -/

/-- Settles O18: every host access completes, and while busy it changes nothing a command works on. -/
theorem hostCannotDisturbABusyEngine : Obligations.HostCannotDisturbABusyEngine := by
  intro s a hp
  obtain ⟨t, ht⟩ := hostAccess_completes a s
  exact ⟨t, ht, hostAccess_work hp ht⟩

/-- While `RND` is in range a phase other than IDLE has a step left. -/
theorem State.stepsLeft_eq_zero_iff (hr : s.rnd.toNat ≤ 23) : s.stepsLeft = 0 ↔ s.phase = .idle := by
  cases hp : s.phase with
  | idle | clr | xor | sqz => simp [State.stepsLeft, hp]
  | theta | rhopi | chi | iota =>
    simp [State.stepsLeft, hp]
    omega

/-- An idle engine given a well-formed command has the steps of that command's issue left. -/
theorem stepsLeft_of_exec {i : Instr} {t : State} (hi : isCommand i = true) (hw : i.wf = true) (hp : s.phase = .idle)
    (h : exec i s = .next t) : t.stepsLeft = (s.issued i).stepsLeft := by
  rw [next_inj (h.symm.trans (exec_command_idle hi hw hp))]

/-- Settles O46: by the invariant the sequencer's turn completes and brings the command nearer to IDLE; the issue's
first phase and operation give each command's number of steps. -/
theorem commandsTakeTheirSteps : Obligations.CommandsTakeTheirSteps := by
  refine ⟨fun s h => ⟨State.stepsLeft_eq_zero_iff h.rndRange, fun hp => ?_⟩, fun s t hp => ?_⟩
  · obtain ⟨t, ht⟩ := h.engineTurn_completes
    exact ⟨t, ht, h.stepsLeft_engineTurn hp ht⟩
  · exact ⟨stepsLeft_of_exec rfl rfl hp, stepsLeft_of_exec rfl rfl hp,
      fun _ hn => stepsLeft_of_exec rfl (decide_eq_true hn) hp, stepsLeft_of_exec rfl rfl hp,
      stepsLeft_of_exec rfl rfl hp⟩

end Sys2Proof.Machine
end

section
/-! PROOFS. The machine has no error case but its flags (60_exceptions.md R165, R166): under the invariant each kind of
turn gives a next state. -/

namespace Sys2Proof.Machine

/-- Under the invariant the next turn gives a next state, whichever it is. -/
theorem State.Inv.step_completes {s : State} (h : s.Inv) : ∃ t, step s = .next t := by
  rcases step_cases s with ⟨-, he⟩ | ⟨ts, -, he⟩ | ⟨a, ts, -, he⟩ | ⟨ts, -, he⟩
  · rw [he]
    exact h.engineTurn_completes
  · rw [he]
    exact (h.withFlags _ _ _ ts _).engineTurn_completes
  · rw [he]
    exact hostAccess_completes a _
  · exact ⟨_, he⟩

/-- Settles O49: the invariant rules out the cases in which a phase of the sequencer has no effect (V6, V7), and a host
access and a reset complete from every state. -/
theorem noStepStops : Obligations.NoStepStops := fun _ h => h.step_completes

end Sys2Proof.Machine
end

section
/-! PROOFS. The state after reset and after a reset turn (70_reset_and_hazards.md R180, R181), and the host that pads
its last block itself (70_reset_and_hazards.md R188). -/

namespace Sys2Proof.Machine

variable {s t : State}

/-! ### Software padding (R188) -/

/-- ABSORB and then SQUEEZE: the block in `BLK` absorbed, and the digest of the lanes in `DOUT`. -/
theorem run_absorb_squeeze (hp : s.phase = .idle) (hts : s.turns = commandTurns .absorb 97 ++ commandTurns .squeeze 1) :
    ∃ t, s.run 100 = .next t ∧ t.lanes = absorbBlock s.lanes s.block ∧ t.dout = squeezeOut t.lanes := by
  have habsorb := absorbNetEffect s _ hp hts
  obtain ⟨t, hsqueeze, ht, hdout, -⟩ := squeezeNetEffect { s with
    lanes := absorbBlock s.lanes s.block, r := 0x8E#8, rnd := 23#5, pend := { op := 0x2#4, n := 0#8 }
    turns := commandTurns .squeeze 1 } [] hp (List.append_nil _).symm
  have hlanes : t.lanes = absorbBlock s.lanes s.block := by rw [ht]
  exact ⟨t, (run_add habsorb).trans hsqueeze, hlanes, by rw [hdout, hlanes]⟩

/-- Settles O42: both hosts have ABSORB_BLOCK of the padded block on the lanes, and `DOUT` is the digest of the
lanes. -/
theorem softwarePaddingEqualsFinal : Obligations.SoftwarePaddingEqualsFinal := by
  intro s u n hs hu hn hlanes hblock hst hut
  obtain ⟨t, hfinal, ht, htdout, -⟩ := finalNetEffect s n [] hs hn (hst.trans (List.append_nil _).symm)
  obtain ⟨v, habsorb, hvlanes, hvdout⟩ := run_absorb_squeeze hu hut
  have hsame : t.lanes = v.lanes := by rw [ht, hvlanes, ← hlanes, hblock]
  exact ⟨t, v, hfinal, habsorb, by rw [htdout, hvdout, hsame], hsame⟩

/-! ### Reset (R180, R181) -/

/-- Settles O20: a reset turn gives the state after reset and keeps the model's own two fields. -/
theorem resetAlwaysCompletes : Obligations.ResetAlwaysCompletes := State.byReset_eq

/-- Settles O47: the reset values are in the ranges the invariant gives. -/
theorem resetMeetsTheInvariant : Obligations.ResetMeetsTheInvariant := State.inv_reset

/-- The state after reset and the state a reset turn gives differ in the model's own two fields only. -/
theorem eq_reset_of_byReset (h : t = State.reset ∨ s.byReset = .next t) :
    ∃ ts rs, t = { State.reset with turns := ts, reads := rs } := by
  rcases h with rfl | h
  · exact ⟨[], [], rfl⟩
  · exact ⟨s.turns, s.reads, (next_inj h).symm⟩

/-- With nothing stored every byte of `BLK` is 0. -/
theorem State.block_of_mem_nil (h : s.mem = []) (k : Fin 136) : s.block[k] = 0x00#8 := by
  rw [Fin.getElem_fin, block_getElem s k.isLt, h, Memory.read_nil, Memory.unlisted]

/-- With nothing stored every byte of `DOUT` is 0. -/
theorem State.dout_of_mem_nil (h : s.mem = []) (j : Fin 32) : s.dout[j] = 0x00#8 := by
  rw [Fin.getElem_fin, dout_getElem s j.isLt, h, Memory.read_nil, Memory.unlisted]

theorem State.reset_status : State.reset.status = 0x00000000#32 := by decide

/-- Settles O19: the model's own two fields, in which alone the two states differ, show in no register; the other
fields hold the reset values, and an idle sequencer keeps the state. -/
theorem resetPutsEveryRegister : Obligations.ResetPutsEveryRegister := by
  intro s t h
  obtain ⟨ts, rs, rfl⟩ := eq_reset_of_byReset h
  exact ⟨fun i => Vector.getElem_replicate i.isLt, State.block_of_mem_nil rfl, State.dout_of_mem_nil rfl,
    (State.status_congr rfl rfl rfl Iff.rfl).trans State.reset_status, rfl, rfl, rfl, rfl, rfl, rfl, rfl, rfl, rfl, rfl,
    (State.byEngine_eq _).trans (engineTurn_idle rfl)⟩

end Sys2Proof.Machine
end
